-- ==== Sys2Proof/Word.lean ====
section
/-! DEFINITION. The widths of EDOC-CORE's values (spec/10_state.md R20, spec/00_scope.md R6 to R11) and the two
shapes its arrays come in. -/

namespace Sys2Proof

/-- A byte: an element of `KEY`, `SE[k]`, `SD[k]`, `SEED`, `BLK`, and the width of `RESULT` (R20). -/
abbrev Byte := BitVec 8

/-- A word of the host's 32-bit data bus, and a command word (R7, R80). -/
abbrev Word := BitVec 32

/-- A bit position of the block, a PBox table entry, a PBox seed: 11 bits, `[0,2048)` (R20, R84). -/
abbrev Pos := BitVec 11

/-- An SBox index `k` or a round number `r`: 3 bits, `[0,8)` (R81, R84). -/
abbrev BoxIdx := BitVec 3

/-- A 256-byte array: `BLK`, `SEED`, or one SBox table (R20). -/
abbrev Block := Vector Byte 256

/-- The key memory `KEY[0..4095]` (R27). -/
abbrev Key := Vector Byte 4096

/-- Eight 256-entry tables: `SE` or `SD` (R28). -/
abbrev Boxes := Vector Block 8

/-- A 2048-entry table of bit positions: `PE` or `PD` (R29). -/
abbrev PTable := Vector Pos 2048

/-- The contents of all seven arrays (R20): what a reset leaves unspecified (spec/10_state.md R44). -/
structure ArrayContents where
  key : Key
  se : Boxes
  sd : Boxes
  pe : PTable
  pd : PTable
  seed : Block
  blk : Block
deriving DecidableEq, Repr, Inhabited

/-- The array whose element `i` is `f i`. (Built over a list, so that the kernel evaluates it element by element.) -/
def tabulate {α : Type} {n : Nat} (f : Fin n → α) : Vector α n :=
  ⟨(List.ofFn f).toArray, by simp⟩

end Sys2Proof
end

