-- ==== Sys2Proof/Syntax.lean ====
section
/-! DEFINITION. The commands of EDOC-CORE (one constructor per row of spec/opcode_table.json), a command as a line of
assembler text (spec/30_encoding.md R88), and what the host can do at the bus (spec/20_memory.md R55,
spec/70_reset_and_hazards.md R250, R251). -/

namespace Sys2Proof

/-- The twelve commands (R83). The operand fields are exactly as wide as the legal ranges (R84), so no operand of an
`Instr` is out of range. -/
inductive Instr where
  /-- `BUILD`: construct the nine tables from `KEY`, zero `SEED` (R104). -/
  | build
  /-- `SB.ENC k, x`: `RESULT <- SE[k][x]` (R122). -/
  | sbEnc (k : BoxIdx) (x : Byte)
  /-- `SB.DEC k, y`: `RESULT <- SD[k][y]` (R123). -/
  | sbDec (k : BoxIdx) (y : Byte)
  /-- `SUB.ENC r`: substitution stage of round `r` on `BLK` (R126). -/
  | subEnc (r : BoxIdx)
  /-- `SUB.DEC r`: inverse substitution stage of round `r` (R127). -/
  | subDec (r : BoxIdx)
  /-- `PB.ENC s`: `BLK <- PBoxEnc(BLK, s)` (R142). -/
  | pbEnc (s : Pos)
  /-- `PB.DEC s`: `BLK <- PBoxDec(BLK, s)` (R143). -/
  | pbDec (s : Pos)
  /-- `RND.ENC r, s`: one encode round (R160). -/
  | rndEnc (r : BoxIdx) (s : Pos)
  /-- `RND.DEC r, s`: one decode round (R161). -/
  | rndDec (r : BoxIdx) (s : Pos)
  /-- `BLK.ENC`: eight encode rounds, seed 0 (R162). -/
  | blkEnc
  /-- `BLK.DEC`: eight decode rounds, seed 0 (R163). -/
  | blkDec
  /-- `CLRERR`: `ERR <- 0` (R182). -/
  | clrErr
deriving DecidableEq, Repr

/-- The twelve mnemonics of R83's table. -/
inductive Mnemonic where
  | build | sbEnc | sbDec | subEnc | subDec | pbEnc | pbDec | rndEnc | rndDec | blkEnc | blkDec | clrErr
deriving DecidableEq, Repr

/-- The five formats of R82, named by the operand fields they use. -/
inductive Format where
  | Z | K | KB | S | KS
deriving DecidableEq, Repr

/-- A command as assembler text gives it: a mnemonic, then numbers in the order `k` (or `r`), then `s` or `x` (R88).
Nothing in it is bounded yet: `CmdLine.wellFormed` says which lines name a command. -/
structure CmdLine where
  mnemonic : Mnemonic
  operands : List Nat
deriving DecidableEq, Repr

/-- The mnemonic of a command (R83). -/
def Instr.mnemonic : Instr → Mnemonic
  | .build => .build
  | .sbEnc _ _ => .sbEnc
  | .sbDec _ _ => .sbDec
  | .subEnc _ => .subEnc
  | .subDec _ => .subDec
  | .pbEnc _ => .pbEnc
  | .pbDec _ => .pbDec
  | .rndEnc _ _ => .rndEnc
  | .rndDec _ _ => .rndDec
  | .blkEnc => .blkEnc
  | .blkDec => .blkDec
  | .clrErr => .clrErr

/-- The operands of a command in text order (R88). -/
def Instr.operands : Instr → List Nat
  | .build => []
  | .sbEnc k x => [k.toNat, x.toNat]
  | .sbDec k y => [k.toNat, y.toNat]
  | .subEnc r => [r.toNat]
  | .subDec r => [r.toNat]
  | .pbEnc s => [s.toNat]
  | .pbDec s => [s.toNat]
  | .rndEnc r s => [r.toNat, s.toNat]
  | .rndDec r s => [r.toNat, s.toNat]
  | .blkEnc => []
  | .blkDec => []
  | .clrErr => []

/-- The assembler line of a command (R88). -/
def Instr.line (i : Instr) : CmdLine := ⟨i.mnemonic, i.operands⟩

/-- The format column of R83. -/
def Mnemonic.format : Mnemonic → Format
  | .build | .blkEnc | .blkDec | .clrErr => .Z
  | .subEnc | .subDec => .K
  | .sbEnc | .sbDec => .KB
  | .pbEnc | .pbDec => .S
  | .rndEnc | .rndDec => .KS

/-- The mnemonic as R83 spells it. -/
def Mnemonic.text : Mnemonic → String
  | .build => "BUILD"
  | .sbEnc => "SB.ENC"
  | .sbDec => "SB.DEC"
  | .subEnc => "SUB.ENC"
  | .subDec => "SUB.DEC"
  | .pbEnc => "PB.ENC"
  | .pbDec => "PB.DEC"
  | .rndEnc => "RND.ENC"
  | .rndDec => "RND.DEC"
  | .blkEnc => "BLK.ENC"
  | .blkDec => "BLK.DEC"
  | .clrErr => "CLRERR"

/-- What the outside world can do to the block: a bus read of `size` bytes at byte offset `off`, a bus write, and the
reset input (R55, R250). `resetDuring w` is a reset applied while the `CMD` write of `w` is stalled (R251). -/
inductive HostEvent where
  | read (off size : Nat)
  | write (off size : Nat) (val : Word)
  | reset
  | resetDuring (w : Word)
deriving DecidableEq, Repr

/-- What the host saw of its last access: nothing yet (or a reset since), a normal response to a write, the data of a
read, an error response (R221, R224). -/
inductive BusResponse where
  | idle
  | ok
  | data (w : Word)
  | error
deriving DecidableEq, Repr

end Sys2Proof
end

