-- ==== Sys2Proof/WellFormed.lean ====
section
/-! DEFINITION. Which assembler lines name a command (spec/30_encoding.md R84, R88) and which host accesses are legal
(spec/20_memory.md R51, R52). -/

namespace Sys2Proof

/-- R84: the index operand lies in `[0,8)`. -/
def boxInRange (k : Nat) : Bool := decide (k < 8)

/-- R84: the byte operand lies in `[0,256)`. -/
def byteInRange (x : Nat) : Bool := decide (x < 256)

/-- R84: the PBox seed lies in `[0,2048)`. -/
def seedInRange (s : Nat) : Bool := decide (s < 2048)

/-- R82, R84: the operand list has the length its format asks for, and every operand is in its range. -/
def Format.accepts : Format → List Nat → Bool
  | .Z, [] => true
  | .K, [k] => boxInRange k
  | .KB, [k, x] => boxInRange k && byteInRange x
  | .S, [s] => seedInRange s
  | .KS, [k, s] => boxInRange k && seedInRange s
  | _, _ => false

/-- A line names a command exactly when its operands suit its mnemonic's format (R82, R84, R88). -/
def CmdLine.wellFormed (l : CmdLine) : Bool := l.mnemonic.format.accepts l.operands

/-- Every `Instr` is well formed: its fields are exactly as wide as R84's ranges (lemma `Instr.wellFormed_true`). -/
def Instr.wellFormed (i : Instr) : Bool := i.line.wellFormed

/-- R51: the offset lies in the register or window area that a read may touch. -/
def readableOffset (off : Nat) : Bool :=
  decide (off = 0x0000 ∨ off = 0x0004 ∨ off = 0x0008 ∨ (0x0100 ≤ off ∧ off ≤ 0x01FF) ∨
    (0x0200 ≤ off ∧ off ≤ 0x02FF) ∨ (0x1000 ≤ off ∧ off ≤ 0x1FFF))

/-- R51: as `readableOffset`, without the read-only `STATUS` and `RESULT`. -/
def writableOffset (off : Nat) : Bool :=
  decide (off = 0x0000 ∨ (0x0100 ≤ off ∧ off ≤ 0x01FF) ∨
    (0x0200 ≤ off ∧ off ≤ 0x02FF) ∨ (0x1000 ≤ off ∧ off ≤ 0x1FFF))

/-- R52: the only legal access is 32 bits wide, at a multiple of 4, at a mapped offset with the needed right. A reset
is no access and always well formed. -/
def HostEvent.legal : HostEvent → Bool
  | .read off size => decide (size = 4) && decide (off % 4 = 0) && readableOffset off
  | .write off size _ => decide (size = 4) && decide (off % 4 = 0) && writableOffset off
  | .reset => true
  | .resetDuring _ => true

end Sys2Proof
end

