-- ==== Sys2Proof/Decode.lean ====
section
/-! DEFINITION. The decoder of command words (spec/30_encoding.md R81, R84, R87), total on 32-bit words and rejecting by
name (R86); the encoder (R85); the match/mask table of R83; the assembler step from a line to a command (R88). -/

namespace Sys2Proof

/-- Why a word is illegal (R86). All of them are one error to the host, `ILLCMD`. -/
inductive Illegal where
  /-- `z27` is not 0. -/
  | reservedBit27
  /-- `z23` is not 0. -/
  | reservedBits23to11
  /-- `op` is `0x0`, `0xD`, `0xE` or `0xF`. -/
  | reservedOpcode
  /-- `k` is not 0 in a `Z` or `S` format command. -/
  | strayIndex
  /-- `arg` is not 0 in a `Z` or `K` format command. -/
  | strayArg
  /-- `arg[10:8]` is not 0 in a `KB` format command. -/
  | strayArgHigh
deriving DecidableEq, Repr

/-- R81: the fields of a command word. -/
def opField (w : Word) : BitVec 4 := w.extractLsb' 28 4
def z27Field (w : Word) : BitVec 1 := w.extractLsb' 27 1
def kField (w : Word) : BoxIdx := w.extractLsb' 24 3
def z23Field (w : Word) : BitVec 13 := w.extractLsb' 11 13
def argField (w : Word) : Pos := w.extractLsb' 0 11

/-- R84: the byte operand of a `KB` command, `arg[7:0]`. -/
def argByte (arg : Pos) : Byte := arg.extractLsb' 0 8

/-- `arg[10:8]`, which a `KB` command must leave 0 (R81). -/
def argHigh (arg : Pos) : BitVec 3 := arg.extractLsb' 8 3

/-- Format `Z` (R82): no operand field. -/
def decodeZ (i : Instr) (k : BoxIdx) (arg : Pos) : Except Illegal Instr :=
  if k ≠ 0 then .error .strayIndex else if arg ≠ 0 then .error .strayArg else .ok i

/-- Format `K` (R82). -/
def decodeK (i : BoxIdx → Instr) (k : BoxIdx) (arg : Pos) : Except Illegal Instr :=
  if arg ≠ 0 then .error .strayArg else .ok (i k)

/-- Format `KB` (R82). -/
def decodeKB (i : BoxIdx → Byte → Instr) (k : BoxIdx) (arg : Pos) : Except Illegal Instr :=
  if argHigh arg ≠ 0 then .error .strayArgHigh else .ok (i k (argByte arg))

/-- Format `S` (R82). -/
def decodeS (i : Pos → Instr) (k : BoxIdx) (arg : Pos) : Except Illegal Instr :=
  if k ≠ 0 then .error .strayIndex else .ok (i arg)

/-- The `case op of` of R87. -/
def decodeOp (op : BitVec 4) (k : BoxIdx) (arg : Pos) : Except Illegal Instr :=
  match op.toNat with
  | 0x1 => decodeZ .build k arg
  | 0x2 => decodeKB .sbEnc k arg
  | 0x3 => decodeKB .sbDec k arg
  | 0x4 => decodeK .subEnc k arg
  | 0x5 => decodeK .subDec k arg
  | 0x6 => decodeS .pbEnc k arg
  | 0x7 => decodeS .pbDec k arg
  | 0x8 => .ok (.rndEnc k arg)
  | 0x9 => .ok (.rndDec k arg)
  | 0xA => decodeZ .blkEnc k arg
  | 0xB => decodeZ .blkDec k arg
  | 0xC => decodeZ .clrErr k arg
  | _ => .error .reservedOpcode

/-- `Decode(w)` of R87: every one of the 2^32 words is a command or is rejected by name. -/
def decode (w : Word) : Except Illegal Instr :=
  if z27Field w ≠ 0 then .error .reservedBit27
  else if z23Field w ≠ 0 then .error .reservedBits23to11
  else decodeOp (opField w) (kField w) (argField w)

/-- The `op` column of R83. -/
def Mnemonic.opcode : Mnemonic → BitVec 4
  | .build => 0x1
  | .sbEnc => 0x2
  | .sbDec => 0x3
  | .subEnc => 0x4
  | .subDec => 0x5
  | .pbEnc => 0x6
  | .pbDec => 0x7
  | .rndEnc => 0x8
  | .rndDec => 0x9
  | .blkEnc => 0xA
  | .blkDec => 0xB
  | .clrErr => 0xC

/-- A command word from its three non-reserved fields (R81). -/
def commandWord (op : BitVec 4) (k : BoxIdx) (arg : Pos) : Word :=
  op ++ 0#1 ++ k ++ 0#13 ++ arg

/-- R84 backwards: the `arg` field that holds a byte operand. -/
def byteArg (x : Byte) : Pos := 0#3 ++ x

/-- R81: the `k` field of a command (0 where the command does not use it). -/
def Instr.indexField : Instr → BoxIdx
  | .sbEnc k _ | .sbDec k _ => k
  | .subEnc r | .subDec r => r
  | .rndEnc r _ | .rndDec r _ => r
  | .build | .pbEnc _ | .pbDec _ | .blkEnc | .blkDec | .clrErr => 0

/-- R81: the `arg` field of a command (0 where the command does not use it). -/
def Instr.argument : Instr → Pos
  | .sbEnc _ x | .sbDec _ x => byteArg x
  | .pbEnc s | .pbDec s => s
  | .rndEnc _ s | .rndDec _ s => s
  | .build | .subEnc _ | .subDec _ | .blkEnc | .blkDec | .clrErr => 0

/-- R85: the word of a command. -/
def encode (i : Instr) : Word := commandWord i.mnemonic.opcode i.indexField i.argument

/-- One row of R83's table: a mnemonic with its `match` and `mask`. -/
structure Row where
  mnemonic : Mnemonic
  bits : Word
  mask : Word
deriving DecidableEq, Repr

/-- The rows of R83. -/
def opcodeTable : List Row :=
  [⟨.build, 0x10000000, 0xFFFFFFFF⟩, ⟨.sbEnc, 0x20000000, 0xF8FFFF00⟩, ⟨.sbDec, 0x30000000, 0xF8FFFF00⟩,
   ⟨.subEnc, 0x40000000, 0xF8FFFFFF⟩, ⟨.subDec, 0x50000000, 0xF8FFFFFF⟩, ⟨.pbEnc, 0x60000000, 0xFFFFF800⟩,
   ⟨.pbDec, 0x70000000, 0xFFFFF800⟩, ⟨.rndEnc, 0x80000000, 0xF8FFF800⟩, ⟨.rndDec, 0x90000000, 0xF8FFF800⟩,
   ⟨.blkEnc, 0xA0000000, 0xFFFFFFFF⟩, ⟨.blkDec, 0xB0000000, 0xFFFFFFFF⟩, ⟨.clrErr, 0xC0000000, 0xFFFFFFFF⟩]

/-- "A word `w` matches a row when `w and mask = match`" (R82). -/
def Row.accepts (r : Row) (w : Word) : Bool := decide (w &&& r.mask = r.bits)

/-- The command of a well-formed line (R88); `none` where the line is not well formed (R84). -/
def assemble (l : CmdLine) : Option Instr :=
  if l.wellFormed then
    match l.mnemonic, l.operands with
    | .build, [] => some .build
    | .sbEnc, [k, x] => some (.sbEnc (BitVec.ofNat 3 k) (BitVec.ofNat 8 x))
    | .sbDec, [k, y] => some (.sbDec (BitVec.ofNat 3 k) (BitVec.ofNat 8 y))
    | .subEnc, [r] => some (.subEnc (BitVec.ofNat 3 r))
    | .subDec, [r] => some (.subDec (BitVec.ofNat 3 r))
    | .pbEnc, [s] => some (.pbEnc (BitVec.ofNat 11 s))
    | .pbDec, [s] => some (.pbDec (BitVec.ofNat 11 s))
    | .rndEnc, [r, s] => some (.rndEnc (BitVec.ofNat 3 r) (BitVec.ofNat 11 s))
    | .rndDec, [r, s] => some (.rndDec (BitVec.ofNat 3 r) (BitVec.ofNat 11 s))
    | .blkEnc, [] => some .blkEnc
    | .blkDec, [] => some .blkDec
    | .clrErr, [] => some .clrErr
    | _, _ => none
  else none

/-- The instruction the decoder reads from a table word of `nbits` bits (bits above them are 0). Every command is one
32-bit word (R80), so no longer word is one. -/
def decodeTableWord (nbits w : Nat) : Option Instr :=
  if nbits ≤ 32 then
    match decode (BitVec.ofNat 32 (w % 2 ^ nbits)) with
    | .ok i => some i
    | .error _ => none
  else none

end Sys2Proof
end

