-- ==== Sys2Proof/Config.lean ====
section
/-! DEFINITION. What the spec leaves open (`ResetMem`, spec/10_state.md R44; the response to a write that reset cut short,
spec/70_reset_and_hazards.md R251), as constants with no body, and the fixed sizes and offsets (spec/00_scope.md R6,
spec/20_memory.md R51). -/

namespace Sys2Proof.Config

/-- `ResetMem` (R44): the contents of all arrays after a reset; free. Whether they are what the arrays held before the reset or
anything else is open (R250), so they are applied to everything they may depend on: the number of the reset (`epoch`,
`State.resets`), the word of the `CMD` write the reset cut short if there was one (R251), and what the arrays held before it
(`none` for the reset at power-on). DESIGN CHOICE (log entry 6): they depend on nothing else. -/
opaque resetContents (epoch : Nat) (stalled : Option Word) (before : Option ArrayContents) : ArrayContents

/-- R251: the response to the `CMD` write of `w` that reset number `epoch` cut short is unspecified: normal (`true`) or error
(`false`); free. -/
opaque abortedWriteCompletes (epoch : Nat) (w : Word) : Bool

/-- R51: byte offset of `CMD` and the bases of the three windows, as host scripts use them. -/
def cmdOffset : Nat := 0x0000
def blkBase : Nat := 0x0100
def seedBase : Nat := 0x0200
def keyBase : Nat := 0x1000

end Sys2Proof.Config
end

