-- ==== Sys2Proof/Machine/State.lean ====
section
/-! DEFINITION. The architectural state of EDOC-CORE (spec/10_state.md R20), the three fields the model adds to run it (what
the host still has to do, what it last saw, how often reset was applied), why a step can stop, and the state after reset
(R44). -/

namespace Sys2Proof.Machine

/-- Everything R20 gives the machine (the first ten fields), and three fields of the model's own. -/
structure State where
  /-- `KEY[0..4095]` (R27). -/
  key : Key
  /-- `SE[k][x]` (R28). -/
  se : Boxes
  /-- `SD[k][y]` (R28). -/
  sd : Boxes
  /-- `PE[p]` (R29). -/
  pe : PTable
  /-- `PD[q]` (R29). -/
  pd : PTable
  /-- `SEED[0..255]` (R30). -/
  seed : Block
  /-- `BLK[0..255]` (R31). -/
  blk : Block
  /-- `STATUS.KEYED` (R23, R25). -/
  keyed : Bool
  /-- `STATUS.ERR` (R23, R25). -/
  err : BitVec 4
  /-- `RESULT` (R26). -/
  result : Byte
  /-- The model's own: the host's accesses that have not taken place yet, in issue order (R22, R62). -/
  pending : List HostEvent
  /-- The model's own: the bus response of the last access (R221, R224). -/
  response : BusResponse
  /-- The model's own: how many resets there were; with it a later reset may leave other contents (R250). -/
  resets : Nat
deriving DecidableEq, Repr

/-- Why the machine stops. -/
inductive Fault where
  /-- Raised by a bus read that R52 does not allow: "the read has no value; model it as a fault of the host's step"
  (spec/60_exceptions.md R236, R224). Safe: the machine stops where the hardware returns an error response and goes on
  unchanged. -/
  | busFault (off : Nat)
deriving DecidableEq, Repr

/-- Why an instruction has no meaning here. -/
inductive Refusal where
  /-- Raised by a command the model gives no meaning; no arm of `exec` answers with it (all twelve commands are
  modelled). Safe: the machine stops. -/
  | notModelled (mnemonic : String)
deriving DecidableEq, Repr

/-- The contents of the seven arrays of a state. -/
def State.contents (s : State) : ArrayContents where
  key := s.key
  se := s.se
  sd := s.sd
  pe := s.pe
  pd := s.pd
  seed := s.seed
  blk := s.blk

/-- The state that reset number `epoch` leaves when it leaves `mem` in the arrays (R44, R250): the flags and `RESULT` are 0. The
reset does not touch what the host still has to do. -/
def State.afterReset (mem : ArrayContents) (epoch : Nat) (pending : List HostEvent) (response : BusResponse) : State where
  key := mem.key
  se := mem.se
  sd := mem.sd
  pe := mem.pe
  pd := mem.pd
  seed := mem.seed
  blk := mem.blk
  keyed := false
  err := 0
  result := 0
  pending := pending
  response := response
  resets := epoch

/-- The machine right after reset (R44), with a host that has not asked for anything yet. -/
def State.reset : State := .afterReset (Config.resetContents 0 none none) 0 [] .idle

end Sys2Proof.Machine
end

