-- ==== Sys2Proof/Machine/Ops.lean ====
section
/-! DEFINITION. The operations the commands share: the loops of the pseudocode (spec/00_scope.md R12), table lookups and the
bit view of a block (R10, R11), words of a window (spec/20_memory.md R53), named updates of the state, and the rejection of a
command (spec/60_exceptions.md R221), which is all this machine has of an exception (R228), with its acknowledgement
(R229). -/

namespace Sys2Proof.Machine

/-- `for i in 0..n-1: s <- f i s` (R12). -/
def iterUp {σ : Type} (f : Nat → σ → σ) : Nat → σ → σ
  | 0, s => s
  | n + 1, s => f n (iterUp f n s)

/-- `for i in n-1, n-2, ..., 0: s <- f i s`. -/
def iterDown {σ : Type} (f : Nat → σ → σ) : Nat → σ → σ
  | 0, s => s
  | n + 1, s => iterDown f n (f n s)

/-- `A[x]` of a 256-entry table or block at an 8-bit index (R10). -/
def byteAt (t : Block) (x : Byte) : Byte := t[x.toNat]'x.isLt

/-- SBox `k`'s table in `SE` or `SD` (R28). -/
def boxAt (ts : Boxes) (k : BoxIdx) : Block := ts[k.toNat]'k.isLt

/-- `PE[p]` or `PD[p]` (R29). -/
def posAt (t : PTable) (p : Pos) : Pos := t[p.toNat]'p.isLt

/-- The byte index of bit position `p`: `p div 8` (R11). -/
def byteIndex (p : Pos) : Fin 256 := ⟨p.toNat / 8, by have := p.isLt; omega⟩

/-- The bit index of bit position `p` in its byte: `p mod 8`, 0 the least significant (R11). -/
def bitIndex (p : Pos) : Nat := p.toNat % 8

/-- `Bit(B, p)` (R11). -/
def bitAt (b : Block) (p : Pos) : Bool := b[byteIndex p].getLsbD (bitIndex p)

/-- `SetBit(B, p)` (R11). -/
def setBit (b : Block) (p : Pos) : Block :=
  b.set (byteIndex p) (b[byteIndex p] ||| (1#8 <<< bitIndex p))

/-- `Zero256` (R11). -/
def zero256 : Block := tabulate fun _ => 0

/-- The word `{A[4j+3], A[4j+2], A[4j+1], A[4j]}` of a byte array (R53). -/
def wordOf {n : Nat} (a : Vector Byte n) (j : Nat) (h : 4 * j + 3 < n) : Word :=
  a[4 * j + 3] ++ a[4 * j + 2] ++ a[4 * j + 1] ++ a[4 * j]

/-- Byte `m` of a bus word: bits `8*m+7 : 8*m` (R53). -/
def wordByte (v : Word) (m : Nat) : Byte := v.extractLsb' (8 * m) 8

/-- A window write: `A[4j] <- v[7:0]`, ..., `A[4j+3] <- v[31:24]` (R55). -/
def putWord {n : Nat} (a : Vector Byte n) (j : Nat) (v : Word) (h : 4 * j + 3 < n) : Vector Byte n :=
  (((a.set (4 * j) (wordByte v 0)).set (4 * j + 1) (wordByte v 1)).set (4 * j + 2) (wordByte v 2)).set (4 * j + 3)
    (wordByte v 3)

/-- The state with another `BLK`. -/
def State.setBlk (s : State) (b : Block) : State := { s with blk := b }

/-- The state with another `SEED`. -/
def State.setSeed (s : State) (b : Block) : State := { s with seed := b }

/-- The state with another `KEY`. -/
def State.setKey (s : State) (k : Key) : State := { s with key := k }

/-- The state with another `RESULT`. -/
def State.setResult (s : State) (v : Byte) : State := { s with result := v }

/-- The state with another `ERR`. -/
def State.setErr (s : State) (e : BitVec 4) : State := { s with err := e }

/-- The state with other SBox tables. -/
def State.setBoxes (s : State) (se sd : Boxes) : State := { s with se := se, sd := sd }

/-- The state with other PBox tables. -/
def State.setPTables (s : State) (pe pd : PTable) : State := { s with pe := pe, pd := pd }

/-- The state with another `KEYED`. -/
def State.setKeyed (s : State) (b : Bool) : State := { s with keyed := b }

/-- The state with another last bus response. -/
def State.setResponse (s : State) (r : BusResponse) : State := { s with response := r }

/-- The state with another list of host accesses to come. -/
def State.setPending (s : State) (p : List HostEvent) : State := { s with pending := p }

/-- The two command errors (spec/60_exceptions.md R220). -/
inductive CmdError where
  | illCmd
  | notKeyed
deriving DecidableEq, Repr

/-- The code of a command error in `ERR` (R220). -/
def CmdError.code : CmdError → BitVec 4
  | .illCmd => 1
  | .notKeyed => 2

/-- `Reject(code)`, `raise CmdError(code)` (spec/44_system.md R180, R221): the first error since the last clear is kept,
nothing else changes. No control is transferred and nothing is saved (R228). -/
def reject (e : CmdError) (s : State) : State :=
  if s.err = 0 then s.setErr e.code else s

/-- The acknowledgement of a rejection, which is all this machine has of a return (R229): `ERR <- 0`. -/
def clearError (s : State) : State := s.setErr 0

/-- The check every table-using command begins with: `if KEYED = 0: raise CmdError(NOTKEYED)` (R121, R141, R169, R222). -/
def whenKeyed (effect : State → State) (s : State) : State :=
  if s.keyed then effect s else reject .notKeyed s

/-- The host-visible byte at byte offset `a` of the register map, in the three windows (R51, R53); `none` outside them. -/
def State.windowByte (s : State) (a : Nat) : Option Byte :=
  if h : 0x0100 ≤ a ∧ a ≤ 0x01FF then some (s.blk[a - 0x0100]'(by omega))
  else if h : 0x0200 ≤ a ∧ a ≤ 0x02FF then some (s.seed[a - 0x0200]'(by omega))
  else if h : 0x1000 ≤ a ∧ a ≤ 0x1FFF then some (s.key[a - 0x1000]'(by omega))
  else none

end Sys2Proof.Machine
end

