-- ==== Sys2Proof/Machine/Flags.lean ====
section
/-! DEFINITION. The two status flags and the three registers as the host reads them (spec/10_state.md R23 to R26). There are no
arithmetic condition codes (R23). -/

namespace Sys2Proof.Machine

/-- `zext_32({ERR, 0b000, KEYED})` (R25). -/
def statusWord (keyed : Bool) (err : BitVec 4) : Word :=
  (err ++ 0b000#3 ++ BitVec.ofBool keyed).setWidth 32

/-- A read of `CMD` returns 0 (R24). -/
def readCmd : Word := 0x00000000

/-- A read of `STATUS` (R25). -/
def readStatus (s : State) : Word := statusWord s.keyed s.err

/-- A read of `RESULT`: bits 7:0 the byte, bits 31:8 read 0 (R26). -/
def readResult (s : State) : Word := s.result.setWidth 32

end Sys2Proof.Machine
end

