-- ==== Sys2Proof/Machine/Operands.lean ====
section
/-! DEFINITION. What the two operand fields name in the machine (spec/30_encoding.md R84): an SBox table, the key byte of a
lane, a PBox seed. There are no register numbers and no addresses in a command (spec/10_state.md R21). -/

namespace Sys2Proof.Machine

/-- `SBoxEnc(k, x) = SE[k][x]` (spec/41_sbox.md R120). -/
def sboxEnc (s : State) (k : BoxIdx) (x : Byte) : Byte := byteAt (boxAt s.se k) x

/-- `SBoxDec(k, y) = SD[k][y]` (R120). -/
def sboxDec (s : State) (k : BoxIdx) (y : Byte) : Byte := byteAt (boxAt s.sd k) y

/-- The XOR key byte of lane `i` in round `r`: the forward table of SBox `r` at the position `i`, in both directions
(R126, R127). -/
def laneKey (se : Boxes) (r : BoxIdx) (i : Fin 256) : Byte := (boxAt se r)[i]

/-- The source bit's seed-shifted position `(p + s) mod 2048` (spec/42_pbox.md R144, R150). -/
def seedShift (p s : Pos) : Pos := p + s

/-- The position before the seed shift, `(t - s) mod 2048` (R145, R150). -/
def seedUnshift (t s : Pos) : Pos := t - s

end Sys2Proof.Machine
end

