-- ==== Sys2Proof/Machine/PBox.lean ====
section
/-! DEFINITION. PBox bit transposition (spec/42_pbox.md): `PB.ENC`, `PB.DEC`, and the rotation and cross-bar of R146. -/

namespace Sys2Proof.Machine

/-- A block whose bit `move p` is set for every set bit `p` of `b`, starting from all zeros: the loop of R144 and R145. -/
def scatter (move : Pos → Pos) (b : Block) : Block :=
  iterUp (fun p out => if bitAt b (BitVec.ofNat 11 p) then setBit out (move (BitVec.ofNat 11 p)) else out) 2048 zero256

/-- `PBoxEnc(B, s)` (R144): the bit at `p` goes to `PE[(p + s) mod 2048]`. -/
def pboxEnc (pe : PTable) (s : Pos) (b : Block) : Block :=
  scatter (fun p => posAt pe (seedShift p s)) b

/-- `PBoxDec(B, s)` (R145): the bit at `q` goes to `(PD[q] - s) mod 2048`. -/
def pboxDec (pd : PTable) (s : Pos) (b : Block) : Block :=
  scatter (fun q => seedUnshift (posAt pd q) s) b

/-- `Rot(B, s)` (R146): the bit at `p` goes to `(p + s) mod 2048`. -/
def rotBlock (s : Pos) (b : Block) : Block := scatter (fun p => p + s) b

/-- `Cross(B)`, and `CrossInv(B)` with the inverse table (R146): the bit at `p` goes to the table's entry for `p`. -/
def crossBlock (t : PTable) (b : Block) : Block := scatter (fun p => posAt t p) b

/-- `PB.ENC s` (R142). -/
def execPbEnc (s : Pos) (st : State) : Host.Outcome State Fault Refusal :=
  .next (whenKeyed (fun st => st.setBlk (pboxEnc st.pe s st.blk)) st)

/-- `PB.DEC s` (R143). -/
def execPbDec (s : Pos) (st : State) : Host.Outcome State Fault Refusal :=
  .next (whenKeyed (fun st => st.setBlk (pboxDec st.pd s st.blk)) st)

end Sys2Proof.Machine
end

