-- ==== Sys2Proof/Machine/Builder.lean ====
section
/-! DEFINITION. The keyed-permutation builder and `BUILD` (spec/40_builder.md). -/

namespace Sys2Proof.Machine

/-- The builder's scratch (spec/10_state.md R35 (a)): `N` slots, each unassigned (`none`) or holding the iteration that
took it, and the cursor. -/
structure Scan (n : Nat) where
  slot : Vector (Option (Fin n)) n
  cur : Fin n
deriving DecidableEq, Repr

/-- The inner loop of R100: from the cursor on, the cursor slot first (R101), count unassigned slots until `target`. The
fuel is the number of slots that may be visited; R102 says `N` is enough. -/
def scanFrom {n : Nat} [NeZero n] (slot : Vector (Option (Fin n)) n) (target : Nat) : Nat → Fin n → Nat → Fin n
  | 0, cur, _ => cur
  | fuel + 1, cur, cnt =>
    let cnt' := if slot[cur] = none then cnt + 1 else cnt
    if cnt' = target then cur else scanFrom slot target fuel (cur + 1) cnt'

/-- All slots unassigned, the cursor at 0 (R100). -/
def Scan.start (n : Nat) [NeZero n] : Scan n := ⟨tabulate fun _ => none, 0⟩

/-- `target <- 1 + (pw[i] mod maxEmpty)` with `maxEmpty = N - i` (R100). -/
def scanTarget {n : Nat} (pw : Fin n → Nat) (i : Fin n) : Nat := 1 + pw i % (n - i)

/-- Iteration `i` of R100's outer loop. -/
def Scan.assign {n : Nat} [NeZero n] (pw : Fin n → Nat) (i : Fin n) (st : Scan n) : Scan n :=
  let c := scanFrom st.slot (scanTarget pw i) n st.cur 0
  ⟨st.slot.set c (some i), c⟩

/-- The scratch after the first `m` iterations. -/
def Scan.after {n : Nat} [NeZero n] (pw : Fin n → Nat) (m : Nat) : Scan n :=
  iterUp (fun i => Scan.assign pw (Fin.ofNat n i)) m (Scan.start n)

/-- `for j: enc[j] <- slot[j]` (R100). No slot is unassigned by then (R102). -/
def buildEnc {n : Nat} [NeZero n] (pw : Fin n → Nat) : Vector (Fin n) n :=
  let slot := (Scan.after pw n).slot
  tabulate fun j => slot[j].getD 0

/-- `for j: dec[enc[j]] <- j` (R100). -/
def invertTable {n : Nat} [NeZero n] (enc : Vector (Fin n) n) : Vector (Fin n) n :=
  iterUp (fun j dec => dec.set (enc[Fin.ofNat n j]) (Fin.ofNat n j)) n (tabulate fun _ => 0)

/-- `BuildPerm(N, pw)` (R100): the forward table and its inverse. -/
def buildPerm {n : Nat} [NeZero n] (pw : Fin n → Nat) : Vector (Fin n) n × Vector (Fin n) n :=
  let enc := buildEnc pw
  (enc, invertTable enc)

/-- One step of R106's closed form: `enc[L[t]] <- i`, then `L` rotated left by `t` without its head. -/
def listAssign {n : Nat} (pw : Fin n → Nat) (i : Fin n) (st : List (Fin n) × Vector (Fin n) n) :
    List (Fin n) × Vector (Fin n) n :=
  let t := pw i % (n - i)
  match st.1[t]? with
  | some slot => (st.1.drop (t + 1) ++ st.1.take t, st.2.set slot i)
  | none => st

/-- The forward table by R106's closed form over the list of unassigned slots. The machine uses `buildEnc`; that the two
agree is a statement. -/
def buildEncByList {n : Nat} [NeZero n] (pw : Fin n → Nat) : Vector (Fin n) n :=
  (iterUp (fun i => listAssign pw (Fin.ofNat n i)) n (List.ofFn id, tabulate fun _ => 0)).2

/-- The key segment of SBox `k`: `KEY[256*k .. 256*k+255]` (spec/10_state.md R27). -/
def boxSegment (key : Key) (k : Fin 8) (i : Fin 256) : Nat := (key[256 * k.val + i.val]'(by omega)).toNat

/-- The key segment of the PBox: `KEY[2048 .. 4095]` (R27). -/
def pboxSegment (key : Key) (i : Fin 2048) : Nat := (key[2048 + i.val]'(by omega)).toNat

/-- A table of `BuildPerm(256, ·)` as bytes. -/
def byteTable (t : Vector (Fin 256) 256) : Block := tabulate fun i => BitVec.ofFin t[i]

/-- A table of `BuildPerm(2048, ·)` as bit positions. -/
def posTable (t : Vector (Fin 2048) 2048) : PTable := tabulate fun i => BitVec.ofFin t[i]

/-- The table pair of SBox `k` (R104). -/
def buildBox (key : Key) (k : Fin 8) : Block × Block :=
  let t := buildPerm (boxSegment key k)
  (byteTable t.1, byteTable t.2)

/-- The table pair of the PBox (R104). -/
def buildPBox (key : Key) : PTable × PTable :=
  let t := buildPerm (pboxSegment key)
  (posTable t.1, posTable t.2)

/-- The effect of `BUILD` (R104): nine table pairs from `KEY`, `SEED` zero, `KEYED <- 1`. -/
def construct (s : State) : State :=
  let boxes : Vector (Block × Block) 8 := tabulate (buildBox s.key)
  let pbox := buildPBox s.key
  (((s.setBoxes (tabulate fun k => boxes[k].1) (tabulate fun k => boxes[k].2)).setPTables pbox.1 pbox.2).setSeed
    zero256).setKeyed true

/-- `BUILD` (R104): legal in every state. -/
def execBuild (s : State) : Host.Outcome State Fault Refusal := .next (construct s)

end Sys2Proof.Machine
end

