-- ==== Sys2Proof/Machine/SBox.lean ====
section
/-! DEFINITION. SBox lookups and the substitution stage (spec/41_sbox.md): `SB.ENC`, `SB.DEC`, `SUB.ENC`, `SUB.DEC`. -/

namespace Sys2Proof.Machine

/-- `SB.ENC k, x` (R122): `RESULT <- SE[k][x]`. -/
def execSbEnc (k : BoxIdx) (x : Byte) (s : State) : Host.Outcome State Fault Refusal :=
  .next (whenKeyed (fun s => s.setResult (sboxEnc s k x)) s)

/-- `SB.DEC k, y` (R123): `RESULT <- SD[k][y]`. -/
def execSbDec (k : BoxIdx) (y : Byte) (s : State) : Host.Outcome State Fault Refusal :=
  .next (whenKeyed (fun s => s.setResult (sboxDec s k y)) s)

/-- `CascEnc(v)`: `for k in 0..7: v <- SE[k][v]` (R125). -/
def cascEnc (se : Boxes) (v : Byte) : Byte :=
  iterUp (fun k v => byteAt (boxAt se (BitVec.ofNat 3 k)) v) 8 v

/-- `CascDec(v)`: `for k in 7,6,...,0: v <- SD[k][v]` (R125). -/
def cascDec (sd : Boxes) (v : Byte) : Byte :=
  iterDown (fun k v => byteAt (boxAt sd (BitVec.ofNat 3 k)) v) 8 v

/-- The substitution stage of round `r`: `BLK[i] <- CascEnc(BLK[i] xor SE[r][i])` on all 256 lanes, which are independent
(R126, R128). -/
def subEncBlock (se : Boxes) (r : BoxIdx) (b : Block) : Block :=
  tabulate fun i => cascEnc se (b[i] ^^^ laneKey se r i)

/-- The inverse stage: `BLK[i] <- CascDec(BLK[i]) xor SE[r][i]` (R127). -/
def subDecBlock (se sd : Boxes) (r : BoxIdx) (b : Block) : Block :=
  tabulate fun i => cascDec sd b[i] ^^^ laneKey se r i

/-- `SUB.ENC r` (R126). -/
def execSubEnc (r : BoxIdx) (s : State) : Host.Outcome State Fault Refusal :=
  .next (whenKeyed (fun s => s.setBlk (subEncBlock s.se r s.blk)) s)

/-- `SUB.DEC r` (R127). -/
def execSubDec (r : BoxIdx) (s : State) : Host.Outcome State Fault Refusal :=
  .next (whenKeyed (fun s => s.setBlk (subDecBlock s.se s.sd r s.blk)) s)

end Sys2Proof.Machine
end

