-- ==== Sys2Proof/Machine/Spn.lean ====
section
/-! DEFINITION. SPN rounds and the eight-round pass (spec/43_spn.md): `RND.ENC`, `RND.DEC`, `BLK.ENC`, `BLK.DEC`. -/

namespace Sys2Proof.Machine

/-- One encode round on a block (R160): the substitution stage of round `r`, then the PBox with seed `p`. -/
def roundEnc (s : State) (r : BoxIdx) (p : Pos) (b : Block) : Block :=
  pboxEnc s.pe p (subEncBlock s.se r b)

/-- One decode round on a block (R161): the inverse PBox first, then the inverse stage. -/
def roundDec (s : State) (r : BoxIdx) (p : Pos) (b : Block) : Block :=
  subDecBlock s.se s.sd r (pboxDec s.pd p b)

/-- Rounds 0 to 7 in increasing order with PBox seed 0, whatever `SEED` holds (R162, R166). -/
def passEnc (s : State) (b : Block) : Block :=
  iterUp (fun r b => roundEnc s (BitVec.ofNat 3 r) 0 b) 8 b

/-- Rounds 7 to 0 in decreasing order with PBox seed 0 (R163, R166). -/
def passDec (s : State) (b : Block) : Block :=
  iterDown (fun r b => roundDec s (BitVec.ofNat 3 r) 0 b) 8 b

/-- `RND.ENC r, s` (R160). -/
def execRndEnc (r : BoxIdx) (p : Pos) (s : State) : Host.Outcome State Fault Refusal :=
  .next (whenKeyed (fun s => s.setBlk (roundEnc s r p s.blk)) s)

/-- `RND.DEC r, s` (R161). -/
def execRndDec (r : BoxIdx) (p : Pos) (s : State) : Host.Outcome State Fault Refusal :=
  .next (whenKeyed (fun s => s.setBlk (roundDec s r p s.blk)) s)

/-- `BLK.ENC` (R162). -/
def execBlkEnc (s : State) : Host.Outcome State Fault Refusal :=
  .next (whenKeyed (fun s => s.setBlk (passEnc s s.blk)) s)

/-- `BLK.DEC` (R163). -/
def execBlkDec (s : State) : Host.Outcome State Fault Refusal :=
  .next (whenKeyed (fun s => s.setBlk (passDec s s.blk)) s)

end Sys2Proof.Machine
end

