-- ==== Sys2Proof/Machine/System.lean ====
section
/-! DEFINITION. The one system command (spec/44_system.md R182, R183). -/

namespace Sys2Proof.Machine

/-- `CLRERR` (R182): legal in every state. -/
def execClrErr (s : State) : Host.Outcome State Fault Refusal := .next (clearError s)

end Sys2Proof.Machine
end

