-- ==== Sys2Proof/Machine/Dispatch.lean ====
section
/-! DEFINITION. `perform c` of spec/44_system.md R180: one arm per command, each a call of that command's meaning. -/

namespace Sys2Proof.Machine

def exec (i : Instr) (s : State) : Host.Outcome State Fault Refusal :=
  match i with
  | .build => Sys2Proof.Machine.execBuild s
  | .sbEnc k x => Sys2Proof.Machine.execSbEnc k x s
  | .sbDec k y => Sys2Proof.Machine.execSbDec k y s
  | .subEnc r => Sys2Proof.Machine.execSubEnc r s
  | .subDec r => Sys2Proof.Machine.execSubDec r s
  | .pbEnc p => Sys2Proof.Machine.execPbEnc p s
  | .pbDec p => Sys2Proof.Machine.execPbDec p s
  | .rndEnc r p => Sys2Proof.Machine.execRndEnc r p s
  | .rndDec r p => Sys2Proof.Machine.execRndDec r p s
  | .blkEnc => Sys2Proof.Machine.execBlkEnc s
  | .blkDec => Sys2Proof.Machine.execBlkDec s
  | .clrErr => Sys2Proof.Machine.execClrErr s

end Sys2Proof.Machine
end

