-- ==== Sys2Proof/Machine/Bus.lean ====
section
/-! DEFINITION. The host interface (spec/20_memory.md R52, R55): bus reads and writes, the command port (spec/44_system.md R180),
and the reset input (spec/70_reset_and_hazards.md R250, R251). -/

namespace Sys2Proof.Machine

/-- `MemRead(addr, n)` (R55); `none` is `raise BusFault(addr)`: the read has no value (R59, R224). -/
def memRead (s : State) (off n : Nat) : Option Word :=
  if n ≠ 4 ∨ off % 4 ≠ 0 then none
  else if off = 0x0000 then some readCmd
  else if off = 0x0004 then some (readStatus s)
  else if off = 0x0008 then some (readResult s)
  else if h : 0x0100 ≤ off ∧ off ≤ 0x01FC then some (wordOf s.blk ((off - 0x0100) / 4) (by omega))
  else if h : 0x0200 ≤ off ∧ off ≤ 0x02FC then some (wordOf s.seed ((off - 0x0200) / 4) (by omega))
  else if h : 0x1000 ≤ off ∧ off ≤ 0x1FFC then some (wordOf s.key ((off - 0x1000) / 4) (by omega))
  else none

/-- The window part of `MemWrite(addr, n, v)` (R55); `none` is `raise BusFault(addr)`. -/
def windowWrite (s : State) (off : Nat) (v : Word) : Option State :=
  if h : 0x0100 ≤ off ∧ off ≤ 0x01FC then
    some (s.setBlk (putWord s.blk ((off - 0x0100) / 4) v (by omega)))
  else if h : 0x0200 ≤ off ∧ off ≤ 0x02FC then
    some (s.setSeed (putWord s.seed ((off - 0x0200) / 4) v (by omega)))
  else if h : 0x1000 ≤ off ∧ off ≤ 0x1FFC then
    some (s.setKey (putWord s.key ((off - 0x1000) / 4) v (by omega)))
  else none

/-- `Execute(w)` (R180): decode, and reject an illegal word with `ILLCMD` before anything else is looked at (R181);
the `KEYED` check stands at the head of each table-using command. The bus write completes with a normal response either
way (R221). -/
def execute (w : Word) (s : State) : Host.Outcome State Fault Refusal :=
  match decode w with
  | .ok i => exec i (s.setResponse .ok)
  | .error _ => .next (reject .illCmd (s.setResponse .ok))

/-- `MemWrite(addr, n, v)` (R55). A faulting write writes nothing, submits nothing and gets an error response, and the
machine goes on (R224, R236). -/
def memWrite (off n : Nat) (v : Word) (s : State) : Host.Outcome State Fault Refusal :=
  if n ≠ 4 ∨ off % 4 ≠ 0 then .next (s.setResponse .error)
  else if off = 0x0000 then execute v s
  else
    match windowWrite s off v with
    | some t => .next (t.setResponse .ok)
    | none => .next (s.setResponse .error)

/-- The reset input (R250), alone or (R251) while the `CMD` write of a word is stalled: whatever the engine held, the flags and
`RESULT` are 0 and the arrays hold free contents. Whether those depend on what the arrays held before is left open: the free value
is applied to it, so neither that they are kept nor that they are erased can be proved. DESIGN CHOICE (log entry 6): they depend
on the old contents of the arrays, the stalled word and the number of the reset, and on nothing else. -/
def applyReset (stalled : Option Word) (response : BusResponse) (s : State) : State :=
  .afterReset (Config.resetContents (s.resets + 1) stalled (some s.contents)) (s.resets + 1) s.pending response

/-- The unspecified response to a `CMD` write that reset cut short (R251). -/
def abortedResponse (w : Word) (s : State) : BusResponse :=
  if Config.abortedWriteCompletes (s.resets + 1) w then .ok else .error

/-- What one event at the host interface does. Only a faulting read stops the machine: it has no value (R236). Reset while
the `CMD` write of a word is stalled abandons that command, whatever it was (R251). -/
def hostEvent (e : HostEvent) (s : State) : Host.Outcome State Fault Refusal :=
  match e with
  | .read off n =>
    match memRead s off n with
    | some w => .next (s.setResponse (.data w))
    | none => .fault (.busFault off)
  | .write off n v => memWrite off n v s
  | .reset => .next (applyReset none .idle s)
  | .resetDuring w => .next (applyReset (some w) (abortedResponse w s) s)

end Sys2Proof.Machine
end

