-- ==== Sys2Proof/Machine/Step.lean ====
section
/-! DEFINITION. One step: the host's next access takes place, as one atomic step (spec/20_memory.md R60, R62). -/

namespace Sys2Proof.Machine

/-- The host's accesses take effect in issue order, each completing before the next begins (R62). With none to come the
engine is idle and keeps all state (spec/60_exceptions.md R235). -/
def step (s : State) : Host.Outcome State Fault Refusal :=
  match s.pending with
  | [] => .next s
  | e :: rest => hostEvent e (s.setPending rest)

/-- The state in which the host's next access is the 32-bit write of command word `w` to `CMD`: this machine fetches no
instructions (spec/10_state.md R22), a command comes to run by being written to `CMD` (R24). -/
def State.withFetchWord (s : State) (nbits w : Nat) : State :=
  s.setPending (.write 0x0000 4 (BitVec.ofNat 32 (w % 2 ^ nbits)) :: s.pending)

end Sys2Proof.Machine
end

