-- ==== Sys2Proof/Machine/Script.lean ====
section
/-! DEFINITION. Host scripts (spec/30_encoding.md R89): two primitive lines, the commands, and five pseudo-instructions, each
with the bus accesses it stands for; and the text of a command (R88). -/

namespace Sys2Proof.Machine

/-- A line of a host script (R89). -/
inductive ScriptLine where
  | wr (off : Nat) (val : Word)
  | rd (off : Nat)
  | command (i : Instr)
  | ldKey (a : Key)
  | ldBlk (a : Block)
  | ldSeed (a : Block)
  | rdBlk
  | rdSeed
deriving DecidableEq, Repr

/-- The 64 word writes of `LDBLK a` and `LDSEED a`, in ascending `j` (R89). -/
def storeBlock (base : Nat) (a : Block) : List HostEvent :=
  List.ofFn fun j : Fin 64 => .write (base + 4 * j) 4 (wordOf a j (by omega))

/-- The 1024 word writes of `LDKEY a` (R89). -/
def storeKey (base : Nat) (a : Key) : List HostEvent :=
  List.ofFn fun j : Fin 1024 => .write (base + 4 * j) 4 (wordOf a j (by omega))

/-- The 64 word reads of `RDBLK` and `RDSEED` (R89). -/
def loadBlock (base : Nat) : List HostEvent :=
  List.ofFn fun j : Fin 64 => .read (base + 4 * j) 4

/-- The write of a command's word to `CMD` (R85, R89). -/
def commandWrite (i : Instr) : HostEvent := .write Config.cmdOffset 4 (encode i)

/-- The bus accesses of a line (R89). -/
def ScriptLine.events : ScriptLine → List HostEvent
  | .wr off val => [.write off 4 val]
  | .rd off => [.read off 4]
  | .command i => [commandWrite i]
  | .ldKey a => storeKey Config.keyBase a
  | .ldBlk a => storeBlock Config.blkBase a
  | .ldSeed a => storeBlock Config.seedBase a
  | .rdBlk => loadBlock Config.blkBase
  | .rdSeed => loadBlock Config.seedBase

/-- The bus accesses of a script, in order (R89). -/
def scriptEvents (l : List ScriptLine) : List HostEvent := l.flatMap ScriptLine.events

/-- The operands of a command's text, separated by commas (R88). -/
def operandText : List Nat → String
  | [] => ""
  | [a] => " " ++ toString a
  | [a, b] => " " ++ toString a ++ ", " ++ toString b
  | a :: _ => " " ++ toString a

/-- The assembler text of a command: the mnemonic in upper case, then its operands in decimal (R88). -/
def commandText (i : Instr) : String := i.mnemonic.text ++ operandText i.operands

end Sys2Proof.Machine
end

