-- ==== Sys2Proof/Machine/Procedures.lean ====
section
/-! DEFINITION. The host procedures of spec/45_host_procedures.md: key expansion, construction, the stream layer, the text
facade and its containers. They are not hardware (spec/00_scope.md R4): each is a sequence of bus accesses of the one host
agent, made through `hostEvent`, and none of them is part of `step`. -/

namespace Sys2Proof.Machine

/-- How a host procedure ends without a result: an argument that breaks a precondition (R200), or an access the machine
stopped on. -/
inductive ProcError where
  | invalidArgument
  | stopped (f : Fault)
  | notPerformed (r : Refusal)
deriving DecidableEq, Repr

/-- A text by its character codes (R191); the procedures depend on nothing else of it. -/
abbrev Codes := List Nat

/-- The pseudo-random source (R190): the raw value of each call. Every draw is one call; a statement about a procedure
holds for every source. -/
abbrev RandSource := Nat → Nat

/-- `Rand(min, max)` at call number `call`: some integer in `[min, max]`, and any of them for some source (R190). -/
def rand (src : RandSource) (call lo hi : Nat) : Nat := lo + src call % (hi - lo + 1)

/-- The network-level container (R196). -/
structure NetContainer where
  length : Nat
  message : List Nat
deriving DecidableEq, Repr

/-- The facade-level container (R199). -/
structure FacadeContainer where
  seed : List Nat
  message : NetContainer
deriving DecidableEq, Repr

/-- "Integers in `[0,255]`" (R194, R196). -/
def allBytes (l : List Nat) : Bool := l.all fun c => decide (c ≤ 255)

/-- R194, R197: a plaintext is non-empty and made of byte values. -/
def plainOk (l : List Nat) : Bool := !l.isEmpty && allBytes l

/-- R195, R196: `|message|` is a multiple of 256, at least `length`, and made of byte values. -/
def NetContainer.wellFormed (c : NetContainer) : Bool :=
  decide (c.message.length % 256 = 0) && decide (c.length ≤ c.message.length) && allBytes c.message

/-- R198, R199: a seed field is exactly 256 integers in `[1,255]`. -/
def seedOk (l : List Nat) : Bool :=
  decide (l.length = 256) && l.all fun c => decide (1 ≤ c ∧ c ≤ 255)

/-- One access of the host. -/
def issue (e : HostEvent) (s : State) : Except ProcError State :=
  match hostEvent e s with
  | .next t => .ok t
  | .fault f => .error (.stopped f)
  | .refused r => .error (.notPerformed r)

/-- Accesses of the host, in order. -/
def issueAll : List HostEvent → State → Except ProcError State
  | [], s => .ok s
  | e :: rest, s =>
    match issue e s with
    | .ok t => issueAll rest t
    | .error x => .error x

/-- Reads of the host, in order, with the data words they return. -/
def readAll : List HostEvent → State → Except ProcError (List Word × State)
  | [], s => .ok ([], s)
  | e :: rest, s =>
    match issue e s with
    | .error x => .error x
    | .ok t =>
      match readAll rest t with
      | .error x => .error x
      | .ok (ws, u) =>
        match t.response with
        | .data w => .ok (w :: ws, u)
        | _ => .ok (ws, u)

/-- The bytes of 64 window words: `a[4j+m] <- v_j[8m+7:8m]` (R89). -/
def unpackBlock (ws : List Word) : Block :=
  tabulate fun i => wordByte (ws.getD (i / 4) 0) (i % 4)

/-- `RDBLK -> a` (R89). -/
def rdBlk (s : State) : Except ProcError (Block × State) :=
  match readAll (ScriptLine.events .rdBlk) s with
  | .ok (ws, t) => .ok (unpackBlock ws, t)
  | .error x => .error x

/-- `RDSEED -> a` (R89). -/
def rdSeed (s : State) : Except ProcError (Block × State) :=
  match readAll (ScriptLine.events .rdSeed) s with
  | .ok (ws, t) => .ok (unpackBlock ws, t)
  | .error x => .error x

/-- `ExpandKey(pwText)` (R192). -/
def expandKey (c : Codes) : Except ProcError Key :=
  if c.length = 0 then .error .invalidArgument
  else if !allBytes c then .error .invalidArgument
  else .ok (tabulate fun j =>
    BitVec.ofNat 8 (if c.length < 4096 then c.getD (j % c.length) 0 else c.getD j 0))

/-- `Construct(pwText)` (R193): `LDKEY key`, `BUILD`. -/
def constructCipher (pw : Codes) (s : State) : Except ProcError State :=
  match expandKey pw with
  | .error x => .error x
  | .ok key => issueAll (scriptEvents [.ldKey key, .command .build]) s

/-- Block `b` of a byte sequence: elements `256*b` to `256*b+255` (R194, R195). -/
def blockOf (l : List Nat) (b : Nat) : Block := tabulate fun i => BitVec.ofNat 8 (l.getD (256 * b + i) 0)

/-- The bytes of a block as integers. -/
def blockBytes (b : Block) : List Nat := b.toList.map BitVec.toNat

/-- The loop of R194 and R195 over blocks `b, b+1, ..., b+n-1`: `LDBLK`, one command, `RDBLK -> out`, concatenate. -/
def codeBlocks (cmd : Instr) (l : List Nat) : Nat → Nat → State → Except ProcError (List Nat × State)
  | 0, _, s => .ok ([], s)
  | n + 1, b, s =>
    match issueAll (scriptEvents [.ldBlk (blockOf l b), .command cmd]) s with
    | .error x => .error x
    | .ok t =>
      match rdBlk t with
      | .error x => .error x
      | .ok (out, u) =>
        match codeBlocks cmd l n (b + 1) u with
        | .error x => .error x
        | .ok (rest, v) => .ok (blockBytes out ++ rest, v)

/-- The filler bytes of R194: `Rand(0, 255)` until the length is a multiple of 256. -/
def filler (src : RandSource) (call n : Nat) : List Nat :=
  (List.range ((256 - n % 256) % 256)).map fun i => rand src (call + i) 0 255

/-- `StreamEncode(plain)` (R194); `call` is the number of the first draw. -/
def streamEncode (src : RandSource) (call : Nat) (plain : List Nat) (s : State) :
    Except ProcError (NetContainer × State) :=
  if !plainOk plain then .error .invalidArgument
  else
    let padded := plain ++ filler src call plain.length
    match codeBlocks .blkEnc padded (padded.length / 256) 0 s with
    | .error x => .error x
    | .ok (message, t) => .ok (⟨plain.length, message⟩, t)

/-- `StreamDecode(container)` (R195). -/
def streamDecode (c : NetContainer) (s : State) : Except ProcError (List Nat × State) :=
  if !c.wellFormed then .error .invalidArgument
  else
    match codeBlocks .blkDec c.message (c.message.length / 256) 0 s with
    | .error x => .error x
    | .ok (plain, t) => .ok (plain.take c.length, t)

/-- The 256 bytes a seed field installs (R197, R198). -/
def seedBlock (l : List Nat) : Block := blockOf l 0

/-- `EdocEncode(text)` (R197). The precondition is checked before any access (R200). -/
def edocEncode (src : RandSource) (call : Nat) (text : Codes) (s : State) :
    Except ProcError (FacadeContainer × State) :=
  if !plainOk text then .error .invalidArgument
  else
    let seed := (List.range 256).map fun j => rand src (call + j) 1 255
    match issueAll (scriptEvents [.ldSeed (seedBlock seed)]) s with
    | .error x => .error x
    | .ok t =>
      match streamEncode src (call + 256) text t with
      | .error x => .error x
      | .ok (inner, u) => .ok (⟨seed, inner⟩, u)

/-- `EdocDecode(container)` (R198). Both preconditions are checked before any access (R200). -/
def edocDecode (c : FacadeContainer) (s : State) : Except ProcError (Codes × State) :=
  if !seedOk c.seed || !c.message.wellFormed then .error .invalidArgument
  else
    match issueAll (scriptEvents [.ldSeed (seedBlock c.seed)]) s with
    | .error x => .error x
    | .ok t => streamDecode c.message t

/-- `StreamDecode(StreamEncode(plain))` (R206 (a)). -/
def streamRoundTrip (src : RandSource) (call : Nat) (plain : List Nat) (s : State) :
    Except ProcError (List Nat × State) :=
  match streamEncode src call plain s with
  | .error x => .error x
  | .ok (c, t) => streamDecode c t

/-- `EdocDecode(EdocEncode(text))` on the engine that `Construct(pwText)` leaves (R206 (b)). -/
def facadeRoundTrip (src : RandSource) (call : Nat) (pw text : Codes) (s : State) : Except ProcError (Codes × State) :=
  match constructCipher pw s with
  | .error x => .error x
  | .ok t =>
    match edocEncode src call text t with
    | .error x => .error x
    | .ok (c, u) => edocDecode c u

/-- The two containers of two successive `EdocEncode(text)` calls (R206 (c)), each with its own draws. -/
def successiveEncodings (src src' : RandSource) (call call' : Nat) (text : Codes) (s : State) :
    Except ProcError (FacadeContainer × FacadeContainer × State) :=
  match edocEncode src call text s with
  | .error x => .error x
  | .ok (c, t) =>
    match edocEncode src' call' text t with
    | .error x => .error x
    | .ok (c', u) => .ok (c, c', u)

/-- The codes of the password `"BlaBlub42"` of R206 (d), as R192 lists them. -/
def scenarioPassword : Codes := [66, 108, 97, 66, 108, 117, 98, 52, 50]

/-- The codes of the plaintext `"Hello World! This is me!"` of R206 (d), as spec/95_test_vectors.md section 5 lists them. -/
def scenarioText : Codes :=
  [0x48, 0x65, 0x6c, 0x6c, 0x6f, 0x20, 0x57, 0x6f, 0x72, 0x6c, 0x64, 0x21, 0x20, 0x54, 0x68, 0x69, 0x73, 0x20, 0x69, 0x73,
   0x20, 0x6d, 0x65, 0x21]

end Sys2Proof.Machine
end

