-- ==== Sys2Proof/Safety.lean ====
section
/-! DEFINITION. What counts as a good state and a good run, in the terms the statements use: the table invariant of
spec/10_state.md R32, the reachable codes of R220, which commands need tables (spec/44_system.md R180), sequences of
commands, and the frames "only this changed". -/

namespace Sys2Proof.Machine

/-- R32: in both directions the inverse table undoes the forward table, for the eight SBoxes and the PBox. -/
structure State.TablesInverse (s : State) : Prop where
  sdSe : ∀ (k : BoxIdx) (x : Byte), sboxDec s k (sboxEnc s k x) = x
  seSd : ∀ (k : BoxIdx) (y : Byte), sboxEnc s k (sboxDec s k y) = y
  pdPe : ∀ p : Pos, posAt s.pd (posAt s.pe p) = p
  pePd : ∀ q : Pos, posAt s.pe (posAt s.pd q) = q

/-- The invariant every step keeps: R32 whenever `KEYED = 1`, and `ERR` one of the codes R220 lets occur. -/
structure State.Inv (s : State) : Prop where
  tables : s.keyed = true → s.TablesInverse
  errCode : s.err = 0 ∨ s.err = CmdError.illCmd.code ∨ s.err = CmdError.notKeyed.code

/-- The tables `BUILD` makes of the all-zero key: every table is the identity (spec/40_builder.md R104). -/
structure State.IdentityTables (s : State) : Prop where
  se : ∀ (k : BoxIdx) (x : Byte), sboxEnc s k x = x
  sd : ∀ (k : BoxIdx) (y : Byte), sboxDec s k y = y
  pe : ∀ p : Pos, posAt s.pe p = p
  pd : ∀ q : Pos, posAt s.pd q = q

/-- "`c` needs tables": every command except `BUILD` and `CLRERR` (spec/44_system.md R180). -/
def needsTables : Instr → Bool
  | .build => false
  | .clrErr => false
  | .sbEnc _ _ => true
  | .sbDec _ _ => true
  | .subEnc _ => true
  | .subDec _ => true
  | .pbEnc _ => true
  | .pbDec _ => true
  | .rndEnc _ _ => true
  | .rndDec _ _ => true
  | .blkEnc => true
  | .blkDec => true

/-- Commands one after the other, each from the state the one before it left. -/
def execSeq : List Instr → State → Host.Outcome State Fault Refusal
  | [], s => .next s
  | i :: rest, s =>
    match exec i s with
    | .next t => execSeq rest t
    | .fault f => .fault f
    | .refused r => .refused r

/-- An outcome with a function applied to the next state. -/
def onNext (f : State → State) : Host.Outcome State Fault Refusal → Host.Outcome State Fault Refusal
  | .next s => .next (f s)
  | .fault x => .fault x
  | .refused r => .refused r

/-- The effect of a rejection with code `e` (R221): the first error is kept, nothing else changes. -/
def rejectedState (e : BitVec 4) (s : State) : State := s.setErr (if s.err = 0 then e else s.err)

/-- `t` differs from `s` in `BLK` at most, and every host-visible byte outside the `BLK` window reads as before. -/
def OnlyBlk (s t : State) : Prop :=
  t = s.setBlk t.blk ∧ ∀ a, ¬ (0x0100 ≤ a ∧ a ≤ 0x01FF) → t.windowByte a = s.windowByte a

/-- `t` differs from `s` in `RESULT` at most, and every host-visible byte reads as before. -/
def OnlyResult (s t : State) : Prop :=
  t = s.setResult t.result ∧ ∀ a, t.windowByte a = s.windowByte a

/-- `t` differs from `s` in `ERR` at most, and every host-visible byte reads as before. -/
def OnlyErr (s t : State) : Prop :=
  t = s.setErr t.err ∧ ∀ a, t.windowByte a = s.windowByte a

/-- `t` differs from `s` in the tables, `SEED` and `KEYED` at most, and every host-visible byte outside the `SEED` window
reads as before: what `BUILD` may write (R104). -/
def OnlyBuilt (s t : State) : Prop :=
  t = (((s.setBoxes t.se t.sd).setPTables t.pe t.pd).setSeed t.seed).setKeyed t.keyed ∧
    ∀ a, ¬ (0x0200 ≤ a ∧ a ≤ 0x02FF) → t.windowByte a = s.windowByte a

/-- The event applies the reset input (R250, R251). -/
def isReset : HostEvent → Bool
  | .reset => true
  | .resetDuring _ => true
  | .read _ _ => false
  | .write _ _ _ => false

/-- `KEY[j]`, 0 outside the key memory (which no statement reads). -/
def byteOfKey (s : State) (j : Nat) : Byte := if h : j < 4096 then s.key[j] else 0

/-- The number of set bit positions of a block. -/
def onesCount (b : Block) : Nat := ((List.range 2048).filter fun p => bitAt b (BitVec.ofNat 11 p)).length

end Sys2Proof.Machine
end

