-- ==== Sys2Proof/Certificates/Slice0/Obligations.lean ====
section
/-! DEFINITION. The statements of this model, from the numbered rules of spec/. Where a docstring names a rule, the
statement says that rule; where it says "inference", the spec itself derives the sentence from other rules. -/

open Sys2Proof Sys2Proof.Machine

/-! ### Encoding -/

/-- R85's sum, with its eleven examples. -/
def Obligations.EncodingIsTheFieldSum : Prop :=
  (∀ i : Instr, (encode i).toNat =
    i.mnemonic.opcode.toNat * 2 ^ 28 + i.indexField.toNat * 2 ^ 24 + i.argument.toNat) ∧
  encode .build = 0x10000000 ∧ encode (.sbEnc 3 0x41) = 0x23000041 ∧ encode (.sbDec 7 255) = 0x370000FF ∧
  encode (.subEnc 5) = 0x45000000 ∧ encode (.pbEnc 2047) = 0x600007FF ∧ encode (.pbDec 5) = 0x70000005 ∧
  encode (.rndEnc 3 100) = 0x83000064 ∧ encode (.rndDec 0 0) = 0x90000000 ∧ encode .blkEnc = 0xA0000000 ∧
  encode .blkDec = 0xB0000000 ∧ encode .clrErr = 0xC0000000

/-- One word of every row of R83, written out from its pattern in R82, decodes to its command. -/
def Obligations.SampleWordsDecodeToTheirCommands : Prop :=
  decode 0b00010000000000000000000000000000 = .ok .build ∧
  decode 0b00100011000000000000000001000001 = .ok (.sbEnc 3 65) ∧
  decode 0b00110111000000000000000011111111 = .ok (.sbDec 7 255) ∧
  decode 0b01000101000000000000000000000000 = .ok (.subEnc 5) ∧
  decode 0b01010010000000000000000000000000 = .ok (.subDec 2) ∧
  decode 0b01100000000000000000011111111111 = .ok (.pbEnc 2047) ∧
  decode 0b01110000000000000000000000000101 = .ok (.pbDec 5) ∧
  decode 0b10000011000000000000000001100100 = .ok (.rndEnc 3 100) ∧
  decode 0b10010111000000000000010000000001 = .ok (.rndDec 7 1025) ∧
  decode 0b10100000000000000000000000000000 = .ok .blkEnc ∧
  decode 0b10110000000000000000000000000000 = .ok .blkDec ∧
  decode 0b11000000000000000000000000000000 = .ok .clrErr

/-- Decoding an encoded command gives it back, with every operand at every value (R84, R85, R87). Every `Instr` is well
formed. -/
def Obligations.DecodeInvertsEncode : Prop :=
  ∀ i : Instr, i.wellFormed = true ∧ decode (encode i) = .ok i

/-- No two words decode to one command: the word is the command's encoding (R85, R87). -/
def Obligations.EncodeInvertsDecode : Prop :=
  ∀ (w : Word) (i : Instr), decode w = .ok i → encode i = w

/-- R87's decoder accepts a word as a command of mnemonic `m` exactly when the word matches `m`'s row of R83 (the spec's
inference at the end of R87), and no word matches two rows. -/
def Obligations.DecoderAgreesWithTheOpcodeTable : Prop :=
  (∀ (w : Word) (m : Mnemonic), (∃ i, decode w = .ok i ∧ i.mnemonic = m) ↔
    ∃ r ∈ opcodeTable, r.mnemonic = m ∧ r.accepts w = true) ∧
  ∀ w : Word, ∀ r ∈ opcodeTable, ∀ r' ∈ opcodeTable, r.accepts w = true → r'.accepts w = true → r = r'

/-- R86: a word is illegal exactly when it matches no row of R83; these are the words with a reserved opcode, a non-zero
reserved field, or a non-zero field their command does not use; writing one to `CMD` is rejected with `ILLCMD` (code 1, R220)
and has no other effect; every word decodes to one of the twelve commands or is illegal. -/
def Obligations.IllegalWordsAreRejectedWithIllCmd : Prop :=
  (∀ w : Word, (∃ e, decode w = .error e) ↔ ∀ r ∈ opcodeTable, r.accepts w = false) ∧
  (∀ w : Word, (∃ e, decode w = .error e) ∨ ∃ i, decode w = .ok i) ∧
  (∀ w : Word, (∃ e, decode w = .error e) ↔
    (opField w = 0x0 ∨ opField w = 0xD ∨ opField w = 0xE ∨ opField w = 0xF) ∨
    z27Field w ≠ 0 ∨ z23Field w ≠ 0 ∨
    (kField w ≠ 0 ∧ (opField w = 0x1 ∨ opField w = 0x6 ∨ opField w = 0x7 ∨ opField w = 0xA ∨ opField w = 0xB ∨
      opField w = 0xC)) ∨
    (argField w ≠ 0 ∧ (opField w = 0x1 ∨ opField w = 0x4 ∨ opField w = 0x5 ∨ opField w = 0xA ∨ opField w = 0xB ∨
      opField w = 0xC)) ∨
    (w.extractLsb' 8 3 ≠ 0 ∧ (opField w = 0x2 ∨ opField w = 0x3))) ∧
  (∃ e, decode 0x00000000 = .error e) ∧
  ∀ (s : State) (rest : List HostEvent) (w : Word) (e : Illegal), decode w = .error e →
    s.pending = .write 0x0000 4 w :: rest →
    step s = .next (rejectedState 1 ((s.setPending rest).setResponse .ok))

/-- The assembler step: it accepts exactly the well-formed lines (operands in R84's ranges), and a command's own line
assembles to it and to nothing else (R88). -/
def Obligations.AssemblingALineGivesItsCommand : Prop :=
  (∀ i : Instr, assemble i.line = some i) ∧
  (∀ l : CmdLine, (assemble l).isSome = l.wellFormed) ∧
  ∀ (l : CmdLine) (i : Instr), assemble l = some i → i.line = l

/-! ### Steps, reset and rejection -/

/-- When the host's next access writes a command's word to `CMD`, the step is that command's meaning on the state with the
access taken from the list and the bus answered normally (R180, R24, R60). -/
def Obligations.StepRunsTheDecodedCommand : Prop :=
  ∀ (s : State) (rest : List HostEvent) (w : Word) (i : Instr), decode w = .ok i →
    s.pending = .write 0x0000 4 w :: rest →
    step s = exec i ((s.setPending rest).setResponse .ok)

/-- R221, with the order of R181: a `CMD` write of an illegal word, or of a command that needs tables while `KEYED = 0`,
performs nothing; `ERR` takes the code only if it holds 0; nothing else changes and the write completes normally. -/
def Obligations.RejectedCommandWritesOnlyErr : Prop :=
  (∀ (s : State) (rest : List HostEvent) (w : Word), s.pending = .write 0x0000 4 w :: rest →
    ((∃ e, decode w = .error e) ∨ ∃ i, decode w = .ok i ∧ needsTables i = true ∧ s.keyed = false) →
    ∃ t, step s = .next t ∧
      t = ((s.setPending rest).setResponse .ok).setErr t.err ∧
      (s.err ≠ 0 → t.err = s.err) ∧
      (s.err = 0 → (∃ e, decode w = .error e) → t.err = 1) ∧
      (s.err = 0 → (∃ i, decode w = .ok i) → t.err = 2) ∧
      ∀ a, t.windowByte a = s.windowByte a) ∧
  ∀ (i : Instr) (s : State), needsTables i = true → s.keyed = false → exec i s = .next (rejectedState 2 s)

/-- After reset the flags and `RESULT` are 0 (R44) and `STATUS` reads 0; that the host has asked for nothing is the model's
choice for its own field (log entry 3). -/
def Obligations.ResetLeavesFlagsAndResultZero : Prop :=
  State.reset.keyed = false ∧ State.reset.err = 0 ∧ State.reset.result = 0 ∧
    readStatus State.reset = 0x00000000 ∧ State.reset.pending = []

/-- The reset input, alone (R250) or during a stalled `CMD` write of any word (R251), leaves `KEYED`, `ERR` and `RESULT` 0
from every state, so that every table-using command after it is rejected; the host's later accesses still come. -/
def Obligations.ResetInputClearsFlagsFromAnyState : Prop :=
  ∀ (s : State) (rest : List HostEvent) (e : HostEvent), isReset e = true → s.pending = e :: rest →
    ∃ t, step s = .next t ∧ t.keyed = false ∧ t.err = 0 ∧ t.result = 0 ∧ t.pending = rest ∧
      ∀ i, needsTables i = true → exec i t = .next (t.setErr 2)

/-! ### The host interface -/

/-- R52 and R224: a legal access is served; an illegal read returns no data, an illegal write gets an error response, and
neither changes any state. That the step of an illegal read is a fault is the model's reading of R236 (log entry 4). -/
def Obligations.OnlyLegalAccessesAreServed : Prop :=
  (∀ (s : State) (rest : List HostEvent) (off n : Nat), s.pending = .read off n :: rest →
    ((HostEvent.read off n).legal = true →
      ∃ w, memRead s off n = some w ∧ step s = .next ((s.setPending rest).setResponse (.data w))) ∧
    ((HostEvent.read off n).legal = false → memRead s off n = none ∧ step s = .fault (.busFault off))) ∧
  ∀ (s : State) (rest : List HostEvent) (off n : Nat) (v : Word), s.pending = .write off n v :: rest →
    ((HostEvent.write off n v).legal = true → ∃ t, step s = .next t ∧ t.response = .ok) ∧
    ((HostEvent.write off n v).legal = false → step s = .next ((s.setPending rest).setResponse .error))

/-- The machine refuses nothing, stops only on an illegal read, and with no access to come keeps all state (R236, R235). -/
def Obligations.EngineStopsOnlyOnAnIllegalRead : Prop :=
  (∀ (s : State) (f : Fault), step s = .fault f ↔
    ∃ off n rest, s.pending = .read off n :: rest ∧ (HostEvent.read off n).legal = false ∧ f = .busFault off) ∧
  (∀ (s : State) (r : Refusal), step s ≠ .refused r) ∧
  ∀ s : State, s.pending = [] → step s = .next s

/-- R25 (but for what `KEYED = 1` means, which the invariant says): `STATUS` reads `KEYED` in bit 0, `ERR` in bits 7:4 and 0
elsewhere, without side effect; a write of any value to it is answered with an error and changes nothing; and codes 3 to 15 do
not occur while the invariant holds. -/
def Obligations.StatusReadsKeyedAndErr : Prop :=
  ∀ (s : State) (rest : List HostEvent),
    (s.pending = .read 0x0004 4 :: rest →
      ∃ w : Word, step s = .next ((s.setPending rest).setResponse (.data w)) ∧
        w.getLsbD 0 = s.keyed ∧ w.extractLsb' 1 3 = 0 ∧ w.extractLsb' 4 4 = s.err ∧ w.extractLsb' 8 24 = 0 ∧
        (s.Inv → w.extractLsb' 4 4 ≤ 2)) ∧
    ∀ v, s.pending = .write 0x0004 4 v :: rest → step s = .next ((s.setPending rest).setResponse .error)

/-- R24 and R26: `CMD` reads 0; `RESULT` reads the byte in bits 7:0 and 0 above, and a write to it changes nothing. -/
def Obligations.CmdReadsZeroAndResultReadsItsByte : Prop :=
  ∀ (s : State) (rest : List HostEvent),
    (s.pending = .read 0x0000 4 :: rest →
      step s = .next ((s.setPending rest).setResponse (.data 0x00000000))) ∧
    (s.pending = .read 0x0008 4 :: rest →
      ∃ w : Word, step s = .next ((s.setPending rest).setResponse (.data w)) ∧
        w.extractLsb' 0 8 = s.result ∧ w.extractLsb' 8 24 = 0) ∧
    ∀ v, s.pending = .write 0x0008 4 v :: rest → step s = .next ((s.setPending rest).setResponse .error)

/-- R53: for a window with base `W` holding array `A`, element `A[i]` is bits `8*(i mod 4)+7 : 8*(i mod 4)` of the word at
`W + 4*(i div 4)`. -/
def Obligations.WindowsPackBytesLittleEndian : Prop :=
  (∀ (s : State) (i : Nat) (h : i < 256),
    ∃ w, memRead s (0x0100 + 4 * (i / 4)) 4 = some w ∧ w.extractLsb' (8 * (i % 4)) 8 = s.blk[i]) ∧
  (∀ (s : State) (i : Nat) (h : i < 256),
    ∃ w, memRead s (0x0200 + 4 * (i / 4)) 4 = some w ∧ w.extractLsb' (8 * (i % 4)) 8 = s.seed[i]) ∧
  ∀ (s : State) (i : Nat) (h : i < 4096),
    ∃ w, memRead s (0x1000 + 4 * (i / 4)) 4 = some w ∧ w.extractLsb' (8 * (i % 4)) 8 = s.key[i]

/-- The spec's inference R54: bit position `p` of the block is bit `p mod 32` of the word at `0x0100 + 4*(p div 32)`. -/
def Obligations.BlockWindowIsOneLittleEndianInteger : Prop :=
  ∀ (s : State) (p : Pos),
    ∃ w, memRead s (0x0100 + 4 * (p.toNat / 32)) 4 = some w ∧ w.getLsbD (p.toNat % 32) = bitAt s.blk p

/-- A word written to a window at a legal offset is read back there, its four bytes are the written ones, every other byte
of the three windows reads as before, and only that window's array changed (R55 to R58, R62 (a)). -/
def Obligations.WindowWriteIsReadBackAndChangesOnlyItsWord : Prop :=
  ∀ (s : State) (rest : List HostEvent) (off : Nat) (v : Word), off % 4 = 0 →
    ((0x0100 ≤ off ∧ off ≤ 0x01FF) ∨ (0x0200 ≤ off ∧ off ≤ 0x02FF) ∨ (0x1000 ≤ off ∧ off ≤ 0x1FFF)) →
    s.pending = .write off 4 v :: rest →
    ∃ t, step s = .next t ∧ memRead t off 4 = some v ∧
      (∀ m, m < 4 → t.windowByte (off + m) = some (v.extractLsb' (8 * m) 8)) ∧
      (∀ a, ¬ (off ≤ a ∧ a < off + 4) → t.windowByte a = s.windowByte a) ∧
      t = ((((s.setPending rest).setResponse .ok).setBlk t.blk).setSeed t.seed).setKey t.key ∧
      (off ≤ 0x01FF → t.seed = s.seed ∧ t.key = s.key) ∧
      (0x0200 ≤ off ∧ off ≤ 0x02FF → t.blk = s.blk ∧ t.key = s.key) ∧
      (0x1000 ≤ off → t.blk = s.blk ∧ t.seed = s.seed)

/-- The pseudo-instructions of R89: loading an array through its window and reading it back gives the array, and loading
changes that array (and the model's record of the last response) only. -/
def Obligations.LoadedArraysAreReadBack : Prop :=
  ∀ (s : State) (a : Block) (k : Key),
    (∃ t, issueAll (ScriptLine.events (.ldBlk a)) s = .ok t ∧ t = (s.setBlk a).setResponse .ok) ∧
    (∃ t, issueAll (ScriptLine.events (.ldSeed a)) s = .ok t ∧ t = (s.setSeed a).setResponse .ok) ∧
    (∃ t, issueAll (ScriptLine.events (.ldKey k)) s = .ok t ∧ t = (s.setKey k).setResponse .ok) ∧
    (∃ t, rdBlk s = .ok (s.blk, t) ∧ t = s.setResponse t.response) ∧
    ∃ t, rdSeed s = .ok (s.seed, t) ∧ t = s.setResponse t.response

/-- The host's accesses take effect in the order it issues them, each completing before the next begins (R62): running the
machine over a list of accesses is making them one after the other. -/
def Obligations.PendingAccessesTakeEffectInOrder : Prop :=
  ∀ (events : List HostEvent) (s t : State),
    issueAll events (s.setPending []) = .ok t ↔ Sys2Proof.core.run events.length (s.setPending events) = .next t

/-! ### The permutation table builder -/

/-- The results of the traces in the spec's section 4 of 40_builder.md (an inference of the spec, R108). -/
def Obligations.BuilderGivesTheTracedTables : Prop :=
  buildPerm (n := 4) (fun _ => 1) = (#v[3, 0, 2, 1], #v[1, 3, 2, 0]) ∧
  buildPerm (n := 4) (fun _ => 0) = (#v[0, 1, 2, 3], #v[0, 1, 2, 3]) ∧
  buildPerm (n := 4) (fun i => 3 - i.val) = (#v[3, 2, 1, 0], #v[3, 2, 1, 0]) ∧
  buildPerm (n := 4) (fun _ => 7) = (#v[2, 1, 3, 0], #v[3, 1, 0, 2]) ∧
  buildPerm (n := 5) (fun i => [5, 9, 2, 6, 3].getD i.val 0) = (#v[0, 2, 1, 3, 4], #v[0, 2, 1, 3, 4]) ∧
  buildPerm (n := 1) (fun _ => 9) = (#v[0], #v[0])

/-- R103: for every `N ≥ 1` and every segment the forward table is a bijection, the two tables undo each other both ways,
and only the residues `pw[i] mod (N - i)` matter, so that `pw[N-1]` never does. -/
def Obligations.BuildPermGivesABijectionAndItsInverse : Prop :=
  ∀ (n : Nat) [NeZero n] (pw : Fin n → Nat),
    (∀ v : Fin n, ∃ x : Fin n, (buildPerm pw).1[x] = v ∧ ∀ y : Fin n, (buildPerm pw).1[y] = v → y = x) ∧
    (∀ x : Fin n, (buildPerm pw).2[(buildPerm pw).1[x]] = x) ∧
    (∀ y : Fin n, (buildPerm pw).1[(buildPerm pw).2[y]] = y) ∧
    (∀ pw' : Fin n → Nat, (∀ i : Fin n, pw i % (n - i) = pw' i % (n - i)) → buildPerm pw' = buildPerm pw) ∧
    ∀ pw' : Fin n → Nat, (∀ i : Fin n, i.val + 1 < n → pw i = pw' i) → buildPerm pw' = buildPerm pw

/-- R102: at the start of iteration `i` exactly `N - i` slots are unassigned and the target lies in `1..N-i`; the scan, `d + 1 ≤ N`
visits from the cursor on, ends on the unassigned slot that is the `target`-th among those visited; and it never needs more than
`N` visits (more fuel changes nothing). -/
def Obligations.ScanAlwaysEndsOnAnUnassignedSlot : Prop :=
  ∀ (n : Nat) [NeZero n] (pw : Fin n → Nat) (i : Fin n),
    ((List.finRange n).filter fun j => (Scan.after pw i.val).slot[j].isNone).length = n - i.val ∧
    1 ≤ scanTarget pw i ∧ scanTarget pw i ≤ n - i.val ∧
    (∃ d, d < n ∧
      scanFrom (Scan.after pw i.val).slot (scanTarget pw i) n (Scan.after pw i.val).cur 0 =
        (Scan.after pw i.val).cur + Fin.ofNat n d ∧
      (Scan.after pw i.val).slot[(Scan.after pw i.val).cur + Fin.ofNat n d] = none ∧
      ((List.range (d + 1)).filter fun v =>
        (Scan.after pw i.val).slot[(Scan.after pw i.val).cur + Fin.ofNat n v].isNone).length = scanTarget pw i) ∧
    ∀ fuel, n ≤ fuel →
      scanFrom (Scan.after pw i.val).slot (scanTarget pw i) fuel (Scan.after pw i.val).cur 0 =
        scanFrom (Scan.after pw i.val).slot (scanTarget pw i) n (Scan.after pw i.val).cur 0

/-- The spec's inference R106: the closed form over the list of unassigned slots builds the same forward table as the
circular scan, for every input. -/
def Obligations.ListFormBuildsTheSameTable : Prop :=
  ∀ (n : Nat) [NeZero n] (pw : Fin n → Nat), buildEncByList pw = (buildPerm pw).1

/-- R101's consequence for iteration 0: the cursor slot is visited first and counts, so `enc[pw[0] mod N] = 0`. -/
def Obligations.FirstScanCountsTheCursorSlot : Prop :=
  ∀ (n : Nat) [NeZero n] (pw : Fin n → Nat), (buildPerm pw).1[Fin.ofNat n (pw 0)] = 0

/-- R104: `BUILD`, in every state, gives SBox `k` the tables of `KEY[256*k .. 256*k+255]` and the PBox those of
`KEY[2048 .. 4095]`, zeroes `SEED`, sets `KEYED`, and writes nothing else; the all-zero key gives identity tables, and a
second `BUILD` changes nothing. -/
def Obligations.BuildMakesTheTablesOfTheKey : Prop :=
  encode .build = 0x10000000 ∧
  ∀ s : State, ∃ t, exec .build s = .next t ∧
    (∀ (k : Fin 8) (x : Fin 256),
      (byteAt (boxAt t.se (BitVec.ofFin k)) (BitVec.ofFin x)).toNat =
        ((buildPerm (n := 256) fun i => (byteOfKey s (256 * k + i)).toNat).1[x]).val ∧
      (byteAt (boxAt t.sd (BitVec.ofFin k)) (BitVec.ofFin x)).toNat =
        ((buildPerm (n := 256) fun i => (byteOfKey s (256 * k + i)).toNat).2[x]).val) ∧
    (∀ p : Fin 2048,
      (posAt t.pe (BitVec.ofFin p)).toNat =
        ((buildPerm (n := 2048) fun i => (byteOfKey s (2048 + i)).toNat).1[p]).val ∧
      (posAt t.pd (BitVec.ofFin p)).toNat =
        ((buildPerm (n := 2048) fun i => (byteOfKey s (2048 + i)).toNat).2[p]).val) ∧
    (∀ j : Fin 256, t.seed[j] = 0) ∧ t.keyed = true ∧ OnlyBuilt s t ∧
    ((∀ j, byteOfKey s j = 0) → t.IdentityTables) ∧
    exec .build t = .next t

/-- R105: no command other than `BUILD` and no host access writes a table; only a reset loses them. -/
def Obligations.TablesChangeOnlyByBuild : Prop :=
  ∀ (s t : State), step s = .next t →
    (∀ e rest, s.pending = e :: rest → isReset e = false ∧ e ≠ .write 0x0000 4 0x10000000) →
    t.se = s.se ∧ t.sd = s.sd ∧ t.pe = s.pe ∧ t.pd = s.pd

/-! ### SBox lookups and the substitution stage -/

/-- R122: `SB.ENC k, x` writes `SE[k][x]` to `RESULT` and nothing else (with identity tables that is `x`); without tables it
is rejected; `arg[10:8]` must be zero. -/
def Obligations.SbEncLooksUpTheForwardTable : Prop :=
  ∀ (k : BoxIdx) (x : Byte) (s : State),
    (encode (.sbEnc k x)).toNat = 0x20000000 + k.toNat * 2 ^ 24 + x.toNat ∧
    (s.keyed = true → ∃ t, exec (.sbEnc k x) s = .next t ∧ t.result = byteAt (boxAt s.se k) x ∧ OnlyResult s t ∧
      (s.IdentityTables → t.result = x)) ∧
    (s.keyed = false → exec (.sbEnc k x) s = .next (rejectedState 2 s)) ∧
    ∀ h : BitVec 3, h ≠ 0 → decode (commandWord 0x2 k (h ++ x)) = .error .strayArgHigh

/-- R123: `SB.DEC k, y` writes `SD[k][y]` to `RESULT` and nothing else, and so undoes a lookup in the forward table; without
tables it is rejected; `arg[10:8]` must be zero. -/
def Obligations.SbDecLooksUpTheInverseTable : Prop :=
  ∀ (k : BoxIdx) (y : Byte) (s : State),
    (encode (.sbDec k y)).toNat = 0x30000000 + k.toNat * 2 ^ 24 + y.toNat ∧
    (s.keyed = true → ∃ t, exec (.sbDec k y) s = .next t ∧ t.result = byteAt (boxAt s.sd k) y ∧ OnlyResult s t) ∧
    (s.keyed = true → s.TablesInverse → ∃ m t, exec (.sbEnc k y) s = .next m ∧ exec (.sbDec k m.result) m = .next t ∧
      t.result = y) ∧
    (s.keyed = false → exec (.sbDec k y) s = .next (rejectedState 2 s)) ∧
    ∀ h : BitVec 3, h ≠ 0 → decode (commandWord 0x3 k (h ++ y)) = .error .strayArgHigh

/-- R125: the cascade goes through the boxes in the order 0 to 7 and back in the order 7 to 0, and (the spec's inference)
with inverse tables each undoes the other. -/
def Obligations.CascadeChainsTheEightBoxes : Prop :=
  (∀ (s : State) (v : Byte),
    cascEnc s.se v = sboxEnc s 7 (sboxEnc s 6 (sboxEnc s 5 (sboxEnc s 4 (sboxEnc s 3 (sboxEnc s 2 (sboxEnc s 1
      (sboxEnc s 0 v))))))) ∧
    cascDec s.sd v = sboxDec s 0 (sboxDec s 1 (sboxDec s 2 (sboxDec s 3 (sboxDec s 4 (sboxDec s 5 (sboxDec s 6
      (sboxDec s 7 v)))))))) ∧
  ∀ (s : State), s.TablesInverse → ∀ v, cascDec s.sd (cascEnc s.se v) = v ∧ cascEnc s.se (cascDec s.sd v) = v

/-- R126: `SUB.ENC r` replaces `BLK[i]` by `CascEnc(BLK[i] xor SE[r][i])` on every lane and writes nothing else; with
identity tables that is `BLK[i] xor i`, whatever `r` is. -/
def Obligations.SubEncTransformsEveryLane : Prop :=
  ∀ (r : BoxIdx) (s : State),
    (encode (.subEnc r)).toNat = 0x40000000 + r.toNat * 2 ^ 24 ∧
    (s.keyed = true → ∃ t, exec (.subEnc r) s = .next t ∧
      (∀ i : Byte, byteAt t.blk i =
        sboxEnc s 7 (sboxEnc s 6 (sboxEnc s 5 (sboxEnc s 4 (sboxEnc s 3 (sboxEnc s 2 (sboxEnc s 1
          (sboxEnc s 0 (byteAt s.blk i ^^^ sboxEnc s r i))))))))) ∧
      OnlyBlk s t ∧
      (s.IdentityTables → ∀ i : Byte, byteAt t.blk i = byteAt s.blk i ^^^ i)) ∧
    (s.keyed = false → exec (.subEnc r) s = .next (rejectedState 2 s))

/-- R127: `SUB.DEC r` replaces `BLK[i]` by `CascDec(BLK[i]) xor SE[r][i]` on every lane, the key byte from the forward
table, and writes nothing else. -/
def Obligations.SubDecTransformsEveryLane : Prop :=
  ∀ (r : BoxIdx) (s : State),
    (encode (.subDec r)).toNat = 0x50000000 + r.toNat * 2 ^ 24 ∧
    (s.keyed = true → ∃ t, exec (.subDec r) s = .next t ∧
      (∀ i : Byte, byteAt t.blk i =
        sboxDec s 0 (sboxDec s 1 (sboxDec s 2 (sboxDec s 3 (sboxDec s 4 (sboxDec s 5 (sboxDec s 6
          (sboxDec s 7 (byteAt s.blk i)))))))) ^^^ sboxEnc s r i) ∧
      OnlyBlk s t) ∧
    (s.keyed = false → exec (.subDec r) s = .next (rejectedState 2 s))

/-- The spec's inference R129: the two stages of one round undo each other in both orders, and with different rounds the
pair leaves `BLK[i] xor SE[r1][i] xor SE[r2][i]`. -/
def Obligations.SubstitutionStagesUndoEachOther : Prop :=
  ∀ (s : State), s.keyed = true → s.TablesInverse →
    (∀ r, execSeq [.subEnc r, .subDec r] s = .next s ∧ execSeq [.subDec r, .subEnc r] s = .next s) ∧
    ∀ r1 r2, ∃ t, execSeq [.subEnc r1, .subDec r2] s = .next t ∧ OnlyBlk s t ∧
      ∀ i : Byte, byteAt t.blk i = byteAt s.blk i ^^^ sboxEnc s r1 i ^^^ sboxEnc s r2 i

/-! ### The PBox -/

/-- R144 and R142: after `PB.ENC s` a position is set exactly when some set position `p` has it as `PE[(p + s) mod 2048]`,
so with a bijective table the bit at `p` is found there; the all-zero and the all-ones block stay, the number of 1 bits is
kept, and nothing but `BLK` changes. -/
def Obligations.PbEncMovesEveryBit : Prop :=
  ∀ (seed : Pos) (s : State),
    (encode (.pbEnc seed)).toNat = 0x60000000 + seed.toNat ∧
    (s.keyed = true → ∃ t, exec (.pbEnc seed) s = .next t ∧ OnlyBlk s t ∧
      (∀ d, bitAt t.blk d = true ↔ ∃ p, bitAt s.blk p = true ∧ posAt s.pe (p + seed) = d) ∧
      (s.TablesInverse →
        (∀ p, bitAt t.blk (posAt s.pe (p + seed)) = bitAt s.blk p) ∧ onesCount t.blk = onesCount s.blk ∧
        ((∀ p, bitAt s.blk p = false) → t = s) ∧ ((∀ p, bitAt s.blk p = true) → t = s))) ∧
    (s.keyed = false → exec (.pbEnc seed) s = .next (rejectedState 2 s))

/-- R145 and R143: after `PB.DEC s` a position is set exactly when some set position `q` has it as
`(PD[q] - s) mod 2048`, and nothing but `BLK` changes. -/
def Obligations.PbDecMovesEveryBit : Prop :=
  ∀ (seed : Pos) (s : State),
    (encode (.pbDec seed)).toNat = 0x70000000 + seed.toNat ∧
    (s.keyed = true → ∃ t, exec (.pbDec seed) s = .next t ∧ OnlyBlk s t ∧
      (∀ d, bitAt t.blk d = true ↔ ∃ q, bitAt s.blk q = true ∧
        d.toNat = ((posAt s.pd q).toNat + 2048 - seed.toNat) % 2048) ∧
      (s.TablesInverse → ∀ q, bitAt t.blk (posAt s.pd q - seed) = bitAt s.blk q)) ∧
    (s.keyed = false → exec (.pbDec seed) s = .next (rejectedState 2 s))

/-- R148: `PB.ENC s` then `PB.DEC s` restores the block bit for bit, and so does the reverse order; with different seeds
the pair is not the identity in general. -/
def Obligations.PboxPassesUndoEachOther : Prop :=
  (∀ (s : State), s.keyed = true → s.TablesInverse → ∀ seed : Pos,
    execSeq [.pbEnc seed, .pbDec seed] s = .next s ∧ execSeq [.pbDec seed, .pbEnc seed] s = .next s) ∧
  ∃ (s : State) (a b : Pos), s.keyed = true ∧ s.TablesInverse ∧ execSeq [.pbEnc a, .pbDec b] s ≠ .next s

/-- The spec's inference R146: the encode pass is a rotation by the seed followed by a fixed cross-bar, and the decode pass
the inverse cross-bar followed by the opposite rotation. -/
def Obligations.PboxIsARotationAndACrossbar : Prop :=
  (∀ (t : PTable) (seed : Pos) (b : Block), pboxEnc t seed b = crossBlock t (rotBlock seed b)) ∧
  ∀ (t : PTable) (seed : Pos) (b : Block),
    pboxDec t seed b = rotBlock (BitVec.ofNat 11 ((2048 - seed.toNat) % 2048)) (crossBlock t b)

/-- The spec's inference R147: on a block with one set bit the two passes show one table entry each. -/
def Obligations.OneSetBitShowsATableEntry : Prop :=
  ∀ (s : State) (p seed : Pos), s.keyed = true → (∀ q, bitAt s.blk q = decide (q = p)) →
    (∃ t, exec (.pbEnc seed) s = .next t ∧ ∀ q, bitAt t.blk q = decide (q = posAt s.pe (p + seed))) ∧
    ∃ t, exec (.pbDec seed) s = .next t ∧ ∀ q, bitAt t.blk q = decide (q = posAt s.pd p - seed)

/-- The spec's inference R149: with bijective tables the two passes distribute over bitwise xor, or and and of blocks. -/
def Obligations.PboxPassesAreBitwiseLinear : Prop :=
  ∀ (s : State), s.TablesInverse → ∀ (f : Pos → Block → Block),
    (f = pboxEnc s.pe ∨ f = pboxDec s.pd) → ∀ (seed : Pos) (a b : Block),
      f seed (tabulate fun i => a[i] ^^^ b[i]) = (tabulate fun i => (f seed a)[i] ^^^ (f seed b)[i]) ∧
      f seed (tabulate fun i => a[i] ||| b[i]) = (tabulate fun i => (f seed a)[i] ||| (f seed b)[i]) ∧
      f seed (tabulate fun i => a[i] &&& b[i]) = (tabulate fun i => (f seed a)[i] &&& (f seed b)[i])

/-! ### Rounds and passes -/

/-- R160: `RND.ENC r, s` has exactly the effect of `SUB.ENC r` followed by `PB.ENC s`, and writes only `BLK`. -/
def Obligations.RndEncIsStageThenTransposition : Prop :=
  ∀ (r : BoxIdx) (seed : Pos) (s : State),
    (encode (.rndEnc r seed)).toNat = 0x80000000 + r.toNat * 2 ^ 24 + seed.toNat ∧
    (s.keyed = true → ∃ m t, exec (.subEnc r) s = .next m ∧ exec (.pbEnc seed) m = .next t ∧
      exec (.rndEnc r seed) s = .next t ∧ OnlyBlk s t) ∧
    (s.keyed = false → exec (.rndEnc r seed) s = .next (rejectedState 2 s))

/-- R161: `RND.DEC r, s` has exactly the effect of `PB.DEC s` followed by `SUB.DEC r`, writes only `BLK`, and restores what
`RND.ENC r, s` changed. -/
def Obligations.RndDecIsTranspositionThenStage : Prop :=
  ∀ (r : BoxIdx) (seed : Pos) (s : State),
    (encode (.rndDec r seed)).toNat = 0x90000000 + r.toNat * 2 ^ 24 + seed.toNat ∧
    (s.keyed = true → ∃ m t, exec (.pbDec seed) s = .next m ∧ exec (.subDec r) m = .next t ∧
      exec (.rndDec r seed) s = .next t ∧ OnlyBlk s t) ∧
    (s.keyed = true → s.TablesInverse → execSeq [.rndEnc r seed, .rndDec r seed] s = .next s) ∧
    (s.keyed = false → exec (.rndDec r seed) s = .next (rejectedState 2 s))

/-- R162: `BLK.ENC` has exactly the effect of `RND.ENC 0, 0` to `RND.ENC 7, 0` in that order, writes only `BLK`, depends on
the tables and the block only, and with identity tables leaves the block as it is. -/
def Obligations.BlkEncIsEightRoundsUp : Prop :=
  encode .blkEnc = 0xA0000000 ∧
  ∀ (s : State),
    (s.keyed = true → ∃ t, exec .blkEnc s = .next t ∧ OnlyBlk s t ∧
      execSeq [.rndEnc 0 0, .rndEnc 1 0, .rndEnc 2 0, .rndEnc 3 0, .rndEnc 4 0, .rndEnc 5 0, .rndEnc 6 0, .rndEnc 7 0] s
        = .next t ∧
      (∀ u : State, u.keyed = true → u.se = s.se → u.pe = s.pe → u.blk = s.blk →
        ∃ v, exec .blkEnc u = .next v ∧ v.blk = t.blk) ∧
      (s.IdentityTables → t = s)) ∧
    (s.keyed = false → exec .blkEnc s = .next (rejectedState 2 s))

/-- R163: `BLK.DEC` has exactly the effect of `RND.DEC 7, 0` to `RND.DEC 0, 0` in that order, writes only `BLK`, and depends
on the tables and the block only. -/
def Obligations.BlkDecIsEightRoundsDown : Prop :=
  encode .blkDec = 0xB0000000 ∧
  ∀ (s : State),
    (s.keyed = true → ∃ t, exec .blkDec s = .next t ∧ OnlyBlk s t ∧
      execSeq [.rndDec 7 0, .rndDec 6 0, .rndDec 5 0, .rndDec 4 0, .rndDec 3 0, .rndDec 2 0, .rndDec 1 0, .rndDec 0 0] s
        = .next t ∧
      (∀ u : State, u.keyed = true → u.se = s.se → u.sd = s.sd → u.pd = s.pd → u.blk = s.blk →
        ∃ v, exec .blkDec u = .next v ∧ v.blk = t.blk)) ∧
    (s.keyed = false → exec .blkDec s = .next (rejectedState 2 s))

/-- The spec's inference R164: one round and its inverse restore the block, in both orders. -/
def Obligations.RoundsUndoEachOther : Prop :=
  ∀ (s : State), s.keyed = true → s.Inv → ∀ (r : BoxIdx) (seed : Pos),
    execSeq [.rndEnc r seed, .rndDec r seed] s = .next s ∧ execSeq [.rndDec r seed, .rndEnc r seed] s = .next s

/-- R165: with tables as `BUILD` leaves them, `BLK.ENC` then `BLK.DEC` restores the block, and so does the reverse order,
whatever the host writes to `SEED` in between. -/
def Obligations.BlockPassesUndoEachOther : Prop :=
  ∀ (s : State), s.keyed = true → s.Inv → ∀ sd : Block,
    (∃ t, exec .blkEnc s = .next t ∧ exec .blkDec (t.setSeed sd) = .next (s.setSeed sd)) ∧
    ∃ t, exec .blkDec s = .next t ∧ exec .blkEnc (t.setSeed sd) = .next (s.setSeed sd)

/-! ### Rules about the whole machine -/

/-- R166: no command's effect depends on `SEED`, and no command except `BUILD`, which zeroes it, writes it. -/
def Obligations.SeedIsInert : Prop :=
  (∀ (i : Instr) (s : State) (sd : Block), i ≠ .build → exec i (s.setSeed sd) = onNext (·.setSeed sd) (exec i s)) ∧
  (∀ (s : State) (sd : Block), exec .build (s.setSeed sd) = exec .build s) ∧
  ∀ (i : Instr) (s t : State), exec i s = .next t → t.seed = if i = .build then zero256 else s.seed

/-- Only `BUILD` reads `KEY` and no command writes it, so a write of the `KEY` window is not seen before the next `BUILD`
(R27, R58, R262). -/
def Obligations.KeyIsSeenOnlyByBuild : Prop :=
  (∀ (i : Instr) (s : State) (k : Key), i ≠ .build → exec i (s.setKey k) = onNext (·.setKey k) (exec i s)) ∧
  ∀ (i : Instr) (s t : State), exec i s = .next t → t.key = s.key

/-- No command's result depends on `ERR` (R23): with another `ERR` a command leaves the same state but for `ERR`, and a
non-zero `ERR` blocks nothing (R180). -/
def Obligations.NoResultDependsOnErr : Prop :=
  ∀ (i : Instr) (s : State) (e : BitVec 4), ∃ t u, exec i s = .next t ∧ exec i (s.setErr e) = .next u ∧
    u.setErr t.err = t

/-- R23: over one step `KEYED` becomes 1 only by `BUILD` and 0 only by reset; `ERR` changes only from 0, by a rejected
command, to that command's code, or to 0, by `CLRERR` or reset. -/
def Obligations.FlagsChangeOnlyByTheirOwnEvents : Prop :=
  ∀ (s t : State), step s = .next t →
    (t.keyed ≠ s.keyed → ∃ e rest, s.pending = e :: rest ∧
      ((t.keyed = true ∧ e = .write 0x0000 4 0x10000000) ∨ (t.keyed = false ∧ isReset e = true))) ∧
    (t.err ≠ s.err → ∃ e rest, s.pending = e :: rest ∧
      ((t.err = 0 ∧ (e = .write 0x0000 4 0xC0000000 ∨ isReset e = true)) ∨
       (s.err = 0 ∧ ∃ w, e = .write 0x0000 4 w ∧
        ((t.err = 1 ∧ ∃ x, decode w = .error x) ∨
         (t.err = 2 ∧ s.keyed = false ∧ ∃ i, decode w = .ok i ∧ needsTables i = true)))))

/-- R26: `RESULT` is written by an executed `SB.ENC` or `SB.DEC` only (and cleared by reset). -/
def Obligations.ResultChangesOnlyByALookup : Prop :=
  ∀ (s t : State), step s = .next t → t.result ≠ s.result → ∃ e rest, s.pending = e :: rest ∧
    ((t.result = 0 ∧ isReset e = true) ∨
     ∃ k x, s.keyed = true ∧
      ((e = .write 0x0000 4 (encode (.sbEnc k x)) ∧ t.result = sboxEnc s k x) ∨
       (e = .write 0x0000 4 (encode (.sbDec k x)) ∧ t.result = sboxDec s k x)))

/-- R182: `CLRERR` clears `ERR`, touches nothing else, and with `ERR` 0 changes nothing; after a rejected `BLK.ENC` on an
unkeyed engine `STATUS` reads `0x20`, and 0 after `CLRERR`. -/
def Obligations.ClrErrClearsOnlyErr : Prop :=
  encode .clrErr = 0xC0000000 ∧
  (∀ s : State, ∃ t, exec .clrErr s = .next t ∧ t.err = 0 ∧ OnlyErr s t ∧ (s.err = 0 → t = s)) ∧
  ∀ s : State, s.keyed = false → s.err = 0 → ∃ t u, exec .blkEnc s = .next t ∧ readStatus t = 0x00000020 ∧
    exec .clrErr t = .next u ∧ readStatus u = 0x00000000

/-- R32 and R220, as an invariant: whatever the host does next, from every state in which the tables are inverse whenever
`KEYED = 1` and `ERR` holds a code that occurs, one step leads to such a state. -/
def Obligations.EveryStepKeepsTheInvariant : Prop :=
  ∀ (s t : State), s.Inv → step s = .next t → t.Inv

/-- The state after reset meets the invariant, whatever the host is about to do. -/
def Obligations.ResetMeetsTheInvariant : Prop :=
  ∀ events : List HostEvent, (State.reset.setPending events).Inv

/-! ### Host procedures -/

/-- R192: key expansion repeats a short password cyclically, uses the first 4096 codes of a long one, and refuses an empty
password and codes above 255. -/
def Obligations.ExpandKeyRepeatsThePassword : Prop :=
  (∀ c : Codes, (c = [] ∨ ∃ x ∈ c, 255 < x) → expandKey c = .error .invalidArgument) ∧
  ∀ c : Codes, c ≠ [] → (∀ x ∈ c, x ≤ 255) → ∃ key : Key, expandKey c = .ok key ∧
    ∀ (j : Nat) (hj : j < 4096),
      (c.length < 4096 → key[j].toNat = c.getD (j % c.length) 0) ∧ (4096 ≤ c.length → key[j].toNat = c.getD j 0)

/-- R193: constructing from an acceptable password loads its expanded key, builds the tables `BUILD` makes of it, sets
`KEYED` and zeroes `SEED`. -/
def Obligations.ConstructKeysTheEngine : Prop :=
  ∀ (pw : Codes) (key : Key) (s : State), expandKey pw = .ok key →
    ∃ t, constructCipher pw s = .ok t ∧ exec .build ((s.setKey key).setResponse .ok) = .next t ∧
      t.key = key ∧ t.keyed = true ∧ t.seed = zero256

/-- The stream round trip (R206 (a)): with a keyed engine, decoding what was encoded gives back the plaintext, for every
outcome of the random source. -/
def Obligations.StreamDecodeInvertsStreamEncode : Prop :=
  ∀ (src : RandSource) (call : Nat) (plain : List Nat) (s : State), plainOk plain = true → s.keyed = true → s.Inv →
    ∃ c t u, streamEncode src call plain s = .ok (c, t) ∧ c.wellFormed = true ∧ c.length = plain.length ∧
      streamDecode c t = .ok (plain, u)

/-- The facade round trip (R206 (b)): for every acceptable password and text, from every state of the engine, and (R199) with
every acceptable seed field in place of the one drawn. -/
def Obligations.EdocDecodeInvertsEdocEncode : Prop :=
  ∀ (src : RandSource) (call : Nat) (pw text : Codes) (key : Key) (s : State), expandKey pw = .ok key →
    plainOk text = true →
    ∃ s1 c s2 s3, constructCipher pw s = .ok s1 ∧ edocEncode src call text s1 = .ok (c, s2) ∧
      edocDecode c s2 = .ok (text, s3) ∧
      ∀ seed : List Nat, seedOk seed = true → ∃ s4, edocDecode ⟨seed, c.message⟩ s2 = .ok (text, s4)

/-- R206 (c): two encodings of one text under the same tables, from any two keyed states (the second may be the state the first
call left, which keeps the tables and `KEYED`), agree on every block that holds no filler, whatever the random source drew, and on
the whole message when the text needs no filler; with tables as `BUILD` leaves them the whole messages agree exactly when the
same filler was drawn. -/
def Obligations.SeedAndFillerReachOnlyTheLastBlock : Prop :=
  ∀ (src src' : RandSource) (call call' : Nat) (text : Codes) (s s' : State), plainOk text = true → s.keyed = true →
    s'.keyed = true → s'.se = s.se → s'.pe = s.pe →
    ∃ c c' t t', edocEncode src call text s = .ok (c, t) ∧ edocEncode src' call' text s' = .ok (c', t') ∧
      (t.keyed = true ∧ t.se = s.se ∧ t.sd = s.sd ∧ t.pe = s.pe ∧ t.pd = s.pd) ∧
      c.message.message.take (256 * (text.length / 256)) = c'.message.message.take (256 * (text.length / 256)) ∧
      (text.length % 256 = 0 → c.message = c'.message) ∧
      (s.Inv → (c.message = c'.message ↔
        filler src (call + 256) text.length = filler src' (call' + 256) text.length))

/-- R206, its four properties of the whole system: (a) the stream round trip, for every outcome of the random source; (b) the
facade round trip, for every non-empty text of codes up to 255 and every non-empty password of codes up to 255 (R192), from every
state; (c) two successive encodings of one text agree on every block without filler, on the whole message if there is no filler,
and otherwise exactly when the same filler was drawn, whatever their seed fields; (d) the concrete scenario. -/
def Obligations.SystemPropertiesHoldOfTheProcedures : Prop :=
  (∀ (src : RandSource) (call : Nat) (plain : List Nat) (s : State), plain ≠ [] → (∀ x ∈ plain, x ≤ 255) →
    s.keyed = true → s.Inv → ∃ t, streamRoundTrip src call plain s = .ok (plain, t)) ∧
  (∀ (src : RandSource) (call : Nat) (pw text : Codes) (s : State), pw ≠ [] → (∀ x ∈ pw, x ≤ 255) → text ≠ [] →
    (∀ x ∈ text, x ≤ 255) → ∃ t, facadeRoundTrip src call pw text s = .ok (text, t)) ∧
  (∀ (src src' : RandSource) (call call' : Nat) (text : Codes) (s : State), text ≠ [] → (∀ x ∈ text, x ≤ 255) →
    s.keyed = true → s.Inv → ∃ c c' t, successiveEncodings src src' call call' text s = .ok (c, c', t) ∧
      c.message.message.take (256 * (text.length / 256)) = c'.message.message.take (256 * (text.length / 256)) ∧
      (text.length % 256 = 0 → c.message.message = c'.message.message) ∧
      (c.message.message = c'.message.message ↔
        filler src (call + 256) text.length = filler src' (call' + 256) text.length)) ∧
  ∀ (src : RandSource) (call : Nat) (s : State),
    ∃ t, facadeRoundTrip src call scenarioPassword scenarioText s = .ok (scenarioText, t)
end

