-- ==== Sys2Proof/Laws/State.lean ====
section
/-! SUPPORT. One lemma for each field after each named update of the state, so that no proof unfolds a record update. -/

namespace Sys2Proof.Machine

@[simp] theorem State.setBlk_key (s : State) (b : Block) : (s.setBlk b).key = s.key := rfl
@[simp] theorem State.setBlk_se (s : State) (b : Block) : (s.setBlk b).se = s.se := rfl
@[simp] theorem State.setBlk_sd (s : State) (b : Block) : (s.setBlk b).sd = s.sd := rfl
@[simp] theorem State.setBlk_pe (s : State) (b : Block) : (s.setBlk b).pe = s.pe := rfl
@[simp] theorem State.setBlk_pd (s : State) (b : Block) : (s.setBlk b).pd = s.pd := rfl
@[simp] theorem State.setBlk_seed (s : State) (b : Block) : (s.setBlk b).seed = s.seed := rfl
@[simp] theorem State.setBlk_blk (s : State) (b : Block) : (s.setBlk b).blk = b := rfl
@[simp] theorem State.setBlk_keyed (s : State) (b : Block) : (s.setBlk b).keyed = s.keyed := rfl
@[simp] theorem State.setBlk_err (s : State) (b : Block) : (s.setBlk b).err = s.err := rfl
@[simp] theorem State.setBlk_result (s : State) (b : Block) : (s.setBlk b).result = s.result := rfl
@[simp] theorem State.setBlk_pending (s : State) (b : Block) : (s.setBlk b).pending = s.pending := rfl
@[simp] theorem State.setBlk_response (s : State) (b : Block) : (s.setBlk b).response = s.response := rfl
@[simp] theorem State.setBlk_resets (s : State) (b : Block) : (s.setBlk b).resets = s.resets := rfl

@[simp] theorem State.setSeed_key (s : State) (b : Block) : (s.setSeed b).key = s.key := rfl
@[simp] theorem State.setSeed_se (s : State) (b : Block) : (s.setSeed b).se = s.se := rfl
@[simp] theorem State.setSeed_sd (s : State) (b : Block) : (s.setSeed b).sd = s.sd := rfl
@[simp] theorem State.setSeed_pe (s : State) (b : Block) : (s.setSeed b).pe = s.pe := rfl
@[simp] theorem State.setSeed_pd (s : State) (b : Block) : (s.setSeed b).pd = s.pd := rfl
@[simp] theorem State.setSeed_seed (s : State) (b : Block) : (s.setSeed b).seed = b := rfl
@[simp] theorem State.setSeed_blk (s : State) (b : Block) : (s.setSeed b).blk = s.blk := rfl
@[simp] theorem State.setSeed_keyed (s : State) (b : Block) : (s.setSeed b).keyed = s.keyed := rfl
@[simp] theorem State.setSeed_err (s : State) (b : Block) : (s.setSeed b).err = s.err := rfl
@[simp] theorem State.setSeed_result (s : State) (b : Block) : (s.setSeed b).result = s.result := rfl
@[simp] theorem State.setSeed_pending (s : State) (b : Block) : (s.setSeed b).pending = s.pending := rfl
@[simp] theorem State.setSeed_response (s : State) (b : Block) : (s.setSeed b).response = s.response := rfl
@[simp] theorem State.setSeed_resets (s : State) (b : Block) : (s.setSeed b).resets = s.resets := rfl

@[simp] theorem State.setKey_key (s : State) (k : Key) : (s.setKey k).key = k := rfl
@[simp] theorem State.setKey_se (s : State) (k : Key) : (s.setKey k).se = s.se := rfl
@[simp] theorem State.setKey_sd (s : State) (k : Key) : (s.setKey k).sd = s.sd := rfl
@[simp] theorem State.setKey_pe (s : State) (k : Key) : (s.setKey k).pe = s.pe := rfl
@[simp] theorem State.setKey_pd (s : State) (k : Key) : (s.setKey k).pd = s.pd := rfl
@[simp] theorem State.setKey_seed (s : State) (k : Key) : (s.setKey k).seed = s.seed := rfl
@[simp] theorem State.setKey_blk (s : State) (k : Key) : (s.setKey k).blk = s.blk := rfl
@[simp] theorem State.setKey_keyed (s : State) (k : Key) : (s.setKey k).keyed = s.keyed := rfl
@[simp] theorem State.setKey_err (s : State) (k : Key) : (s.setKey k).err = s.err := rfl
@[simp] theorem State.setKey_result (s : State) (k : Key) : (s.setKey k).result = s.result := rfl
@[simp] theorem State.setKey_pending (s : State) (k : Key) : (s.setKey k).pending = s.pending := rfl
@[simp] theorem State.setKey_response (s : State) (k : Key) : (s.setKey k).response = s.response := rfl
@[simp] theorem State.setKey_resets (s : State) (k : Key) : (s.setKey k).resets = s.resets := rfl

@[simp] theorem State.setResult_key (s : State) (v : Byte) : (s.setResult v).key = s.key := rfl
@[simp] theorem State.setResult_se (s : State) (v : Byte) : (s.setResult v).se = s.se := rfl
@[simp] theorem State.setResult_sd (s : State) (v : Byte) : (s.setResult v).sd = s.sd := rfl
@[simp] theorem State.setResult_pe (s : State) (v : Byte) : (s.setResult v).pe = s.pe := rfl
@[simp] theorem State.setResult_pd (s : State) (v : Byte) : (s.setResult v).pd = s.pd := rfl
@[simp] theorem State.setResult_seed (s : State) (v : Byte) : (s.setResult v).seed = s.seed := rfl
@[simp] theorem State.setResult_blk (s : State) (v : Byte) : (s.setResult v).blk = s.blk := rfl
@[simp] theorem State.setResult_keyed (s : State) (v : Byte) : (s.setResult v).keyed = s.keyed := rfl
@[simp] theorem State.setResult_err (s : State) (v : Byte) : (s.setResult v).err = s.err := rfl
@[simp] theorem State.setResult_result (s : State) (v : Byte) : (s.setResult v).result = v := rfl
@[simp] theorem State.setResult_pending (s : State) (v : Byte) : (s.setResult v).pending = s.pending := rfl
@[simp] theorem State.setResult_response (s : State) (v : Byte) : (s.setResult v).response = s.response := rfl
@[simp] theorem State.setResult_resets (s : State) (v : Byte) : (s.setResult v).resets = s.resets := rfl

@[simp] theorem State.setErr_key (s : State) (e : BitVec 4) : (s.setErr e).key = s.key := rfl
@[simp] theorem State.setErr_se (s : State) (e : BitVec 4) : (s.setErr e).se = s.se := rfl
@[simp] theorem State.setErr_sd (s : State) (e : BitVec 4) : (s.setErr e).sd = s.sd := rfl
@[simp] theorem State.setErr_pe (s : State) (e : BitVec 4) : (s.setErr e).pe = s.pe := rfl
@[simp] theorem State.setErr_pd (s : State) (e : BitVec 4) : (s.setErr e).pd = s.pd := rfl
@[simp] theorem State.setErr_seed (s : State) (e : BitVec 4) : (s.setErr e).seed = s.seed := rfl
@[simp] theorem State.setErr_blk (s : State) (e : BitVec 4) : (s.setErr e).blk = s.blk := rfl
@[simp] theorem State.setErr_keyed (s : State) (e : BitVec 4) : (s.setErr e).keyed = s.keyed := rfl
@[simp] theorem State.setErr_err (s : State) (e : BitVec 4) : (s.setErr e).err = e := rfl
@[simp] theorem State.setErr_result (s : State) (e : BitVec 4) : (s.setErr e).result = s.result := rfl
@[simp] theorem State.setErr_pending (s : State) (e : BitVec 4) : (s.setErr e).pending = s.pending := rfl
@[simp] theorem State.setErr_response (s : State) (e : BitVec 4) : (s.setErr e).response = s.response := rfl
@[simp] theorem State.setErr_resets (s : State) (e : BitVec 4) : (s.setErr e).resets = s.resets := rfl

@[simp] theorem State.setKeyed_key (s : State) (b : Bool) : (s.setKeyed b).key = s.key := rfl
@[simp] theorem State.setKeyed_se (s : State) (b : Bool) : (s.setKeyed b).se = s.se := rfl
@[simp] theorem State.setKeyed_sd (s : State) (b : Bool) : (s.setKeyed b).sd = s.sd := rfl
@[simp] theorem State.setKeyed_pe (s : State) (b : Bool) : (s.setKeyed b).pe = s.pe := rfl
@[simp] theorem State.setKeyed_pd (s : State) (b : Bool) : (s.setKeyed b).pd = s.pd := rfl
@[simp] theorem State.setKeyed_seed (s : State) (b : Bool) : (s.setKeyed b).seed = s.seed := rfl
@[simp] theorem State.setKeyed_blk (s : State) (b : Bool) : (s.setKeyed b).blk = s.blk := rfl
@[simp] theorem State.setKeyed_keyed (s : State) (b : Bool) : (s.setKeyed b).keyed = b := rfl
@[simp] theorem State.setKeyed_err (s : State) (b : Bool) : (s.setKeyed b).err = s.err := rfl
@[simp] theorem State.setKeyed_result (s : State) (b : Bool) : (s.setKeyed b).result = s.result := rfl
@[simp] theorem State.setKeyed_pending (s : State) (b : Bool) : (s.setKeyed b).pending = s.pending := rfl
@[simp] theorem State.setKeyed_response (s : State) (b : Bool) : (s.setKeyed b).response = s.response := rfl
@[simp] theorem State.setKeyed_resets (s : State) (b : Bool) : (s.setKeyed b).resets = s.resets := rfl

@[simp] theorem State.setResponse_key (s : State) (r : BusResponse) : (s.setResponse r).key = s.key := rfl
@[simp] theorem State.setResponse_se (s : State) (r : BusResponse) : (s.setResponse r).se = s.se := rfl
@[simp] theorem State.setResponse_sd (s : State) (r : BusResponse) : (s.setResponse r).sd = s.sd := rfl
@[simp] theorem State.setResponse_pe (s : State) (r : BusResponse) : (s.setResponse r).pe = s.pe := rfl
@[simp] theorem State.setResponse_pd (s : State) (r : BusResponse) : (s.setResponse r).pd = s.pd := rfl
@[simp] theorem State.setResponse_seed (s : State) (r : BusResponse) : (s.setResponse r).seed = s.seed := rfl
@[simp] theorem State.setResponse_blk (s : State) (r : BusResponse) : (s.setResponse r).blk = s.blk := rfl
@[simp] theorem State.setResponse_keyed (s : State) (r : BusResponse) : (s.setResponse r).keyed = s.keyed := rfl
@[simp] theorem State.setResponse_err (s : State) (r : BusResponse) : (s.setResponse r).err = s.err := rfl
@[simp] theorem State.setResponse_result (s : State) (r : BusResponse) : (s.setResponse r).result = s.result := rfl
@[simp] theorem State.setResponse_pending (s : State) (r : BusResponse) : (s.setResponse r).pending = s.pending := rfl
@[simp] theorem State.setResponse_response (s : State) (r : BusResponse) : (s.setResponse r).response = r := rfl
@[simp] theorem State.setResponse_resets (s : State) (r : BusResponse) : (s.setResponse r).resets = s.resets := rfl

@[simp] theorem State.setPending_key (s : State) (p : List HostEvent) : (s.setPending p).key = s.key := rfl
@[simp] theorem State.setPending_se (s : State) (p : List HostEvent) : (s.setPending p).se = s.se := rfl
@[simp] theorem State.setPending_sd (s : State) (p : List HostEvent) : (s.setPending p).sd = s.sd := rfl
@[simp] theorem State.setPending_pe (s : State) (p : List HostEvent) : (s.setPending p).pe = s.pe := rfl
@[simp] theorem State.setPending_pd (s : State) (p : List HostEvent) : (s.setPending p).pd = s.pd := rfl
@[simp] theorem State.setPending_seed (s : State) (p : List HostEvent) : (s.setPending p).seed = s.seed := rfl
@[simp] theorem State.setPending_blk (s : State) (p : List HostEvent) : (s.setPending p).blk = s.blk := rfl
@[simp] theorem State.setPending_keyed (s : State) (p : List HostEvent) : (s.setPending p).keyed = s.keyed := rfl
@[simp] theorem State.setPending_err (s : State) (p : List HostEvent) : (s.setPending p).err = s.err := rfl
@[simp] theorem State.setPending_result (s : State) (p : List HostEvent) : (s.setPending p).result = s.result := rfl
@[simp] theorem State.setPending_pending (s : State) (p : List HostEvent) : (s.setPending p).pending = p := rfl
@[simp] theorem State.setPending_response (s : State) (p : List HostEvent) : (s.setPending p).response = s.response := rfl
@[simp] theorem State.setPending_resets (s : State) (p : List HostEvent) : (s.setPending p).resets = s.resets := rfl

@[simp] theorem State.setBoxes_key (s : State) (se sd : Boxes) : (s.setBoxes se sd).key = s.key := rfl
@[simp] theorem State.setBoxes_se (s : State) (se sd : Boxes) : (s.setBoxes se sd).se = se := rfl
@[simp] theorem State.setBoxes_sd (s : State) (se sd : Boxes) : (s.setBoxes se sd).sd = sd := rfl
@[simp] theorem State.setBoxes_pe (s : State) (se sd : Boxes) : (s.setBoxes se sd).pe = s.pe := rfl
@[simp] theorem State.setBoxes_pd (s : State) (se sd : Boxes) : (s.setBoxes se sd).pd = s.pd := rfl
@[simp] theorem State.setBoxes_seed (s : State) (se sd : Boxes) : (s.setBoxes se sd).seed = s.seed := rfl
@[simp] theorem State.setBoxes_blk (s : State) (se sd : Boxes) : (s.setBoxes se sd).blk = s.blk := rfl
@[simp] theorem State.setBoxes_keyed (s : State) (se sd : Boxes) : (s.setBoxes se sd).keyed = s.keyed := rfl
@[simp] theorem State.setBoxes_err (s : State) (se sd : Boxes) : (s.setBoxes se sd).err = s.err := rfl
@[simp] theorem State.setBoxes_result (s : State) (se sd : Boxes) : (s.setBoxes se sd).result = s.result := rfl
@[simp] theorem State.setBoxes_pending (s : State) (se sd : Boxes) : (s.setBoxes se sd).pending = s.pending := rfl
@[simp] theorem State.setBoxes_response (s : State) (se sd : Boxes) : (s.setBoxes se sd).response = s.response := rfl
@[simp] theorem State.setBoxes_resets (s : State) (se sd : Boxes) : (s.setBoxes se sd).resets = s.resets := rfl

@[simp] theorem State.setPTables_key (s : State) (pe pd : PTable) : (s.setPTables pe pd).key = s.key := rfl
@[simp] theorem State.setPTables_se (s : State) (pe pd : PTable) : (s.setPTables pe pd).se = s.se := rfl
@[simp] theorem State.setPTables_sd (s : State) (pe pd : PTable) : (s.setPTables pe pd).sd = s.sd := rfl
@[simp] theorem State.setPTables_pe (s : State) (pe pd : PTable) : (s.setPTables pe pd).pe = pe := rfl
@[simp] theorem State.setPTables_pd (s : State) (pe pd : PTable) : (s.setPTables pe pd).pd = pd := rfl
@[simp] theorem State.setPTables_seed (s : State) (pe pd : PTable) : (s.setPTables pe pd).seed = s.seed := rfl
@[simp] theorem State.setPTables_blk (s : State) (pe pd : PTable) : (s.setPTables pe pd).blk = s.blk := rfl
@[simp] theorem State.setPTables_keyed (s : State) (pe pd : PTable) : (s.setPTables pe pd).keyed = s.keyed := rfl
@[simp] theorem State.setPTables_err (s : State) (pe pd : PTable) : (s.setPTables pe pd).err = s.err := rfl
@[simp] theorem State.setPTables_result (s : State) (pe pd : PTable) : (s.setPTables pe pd).result = s.result := rfl
@[simp] theorem State.setPTables_pending (s : State) (pe pd : PTable) : (s.setPTables pe pd).pending = s.pending := rfl
@[simp] theorem State.setPTables_response (s : State) (pe pd : PTable) : (s.setPTables pe pd).response = s.response := rfl
@[simp] theorem State.setPTables_resets (s : State) (pe pd : PTable) : (s.setPTables pe pd).resets = s.resets := rfl

@[simp] theorem State.afterReset_key (m : ArrayContents) (n : Nat) (p : List HostEvent) (r : BusResponse) :
    (State.afterReset m n p r).key = m.key := rfl
@[simp] theorem State.afterReset_se (m : ArrayContents) (n : Nat) (p : List HostEvent) (r : BusResponse) :
    (State.afterReset m n p r).se = m.se := rfl
@[simp] theorem State.afterReset_sd (m : ArrayContents) (n : Nat) (p : List HostEvent) (r : BusResponse) :
    (State.afterReset m n p r).sd = m.sd := rfl
@[simp] theorem State.afterReset_pe (m : ArrayContents) (n : Nat) (p : List HostEvent) (r : BusResponse) :
    (State.afterReset m n p r).pe = m.pe := rfl
@[simp] theorem State.afterReset_pd (m : ArrayContents) (n : Nat) (p : List HostEvent) (r : BusResponse) :
    (State.afterReset m n p r).pd = m.pd := rfl
@[simp] theorem State.afterReset_seed (m : ArrayContents) (n : Nat) (p : List HostEvent) (r : BusResponse) :
    (State.afterReset m n p r).seed = m.seed := rfl
@[simp] theorem State.afterReset_blk (m : ArrayContents) (n : Nat) (p : List HostEvent) (r : BusResponse) :
    (State.afterReset m n p r).blk = m.blk := rfl
@[simp] theorem State.afterReset_keyed (m : ArrayContents) (n : Nat) (p : List HostEvent) (r : BusResponse) :
    (State.afterReset m n p r).keyed = false := rfl
@[simp] theorem State.afterReset_err (m : ArrayContents) (n : Nat) (p : List HostEvent) (r : BusResponse) :
    (State.afterReset m n p r).err = 0 := rfl
@[simp] theorem State.afterReset_result (m : ArrayContents) (n : Nat) (p : List HostEvent) (r : BusResponse) :
    (State.afterReset m n p r).result = 0 := rfl
@[simp] theorem State.afterReset_pending (m : ArrayContents) (n : Nat) (p : List HostEvent) (r : BusResponse) :
    (State.afterReset m n p r).pending = p := rfl
@[simp] theorem State.afterReset_response (m : ArrayContents) (n : Nat) (p : List HostEvent) (r : BusResponse) :
    (State.afterReset m n p r).response = r := rfl
@[simp] theorem State.afterReset_resets (m : ArrayContents) (n : Nat) (p : List HostEvent) (r : BusResponse) :
    (State.afterReset m n p r).resets = n := rfl

end Sys2Proof.Machine
end

