-- ==== Sys2Proof/Laws/Ops.lean ====
section
/-! SUPPORT. What the shared operations of Machine/Ops.lean do, each said once. -/

namespace Sys2Proof

@[simp] theorem getElem_tabulate {α : Type} {n : Nat} (f : Fin n → α) (i : Nat) (h : i < n) :
    (tabulate f)[i] = f ⟨i, h⟩ := by
  simp [tabulate]

/-- Two arrays with the same elements are the same array; with `getElem_tabulate`, an array is the one it tabulates. -/
theorem tabulate_getElem {α : Type} {n : Nat} (v : Vector α n) : (tabulate fun i => v[i]) = v := by
  ext i h; simp

end Sys2Proof

namespace Sys2Proof.Machine

@[simp] theorem iterUp_zero {σ : Type} (f : Nat → σ → σ) (s : σ) : iterUp f 0 s = s := rfl
@[simp] theorem iterUp_succ {σ : Type} (f : Nat → σ → σ) (n : Nat) (s : σ) :
    iterUp f (n + 1) s = f n (iterUp f n s) := rfl
@[simp] theorem iterDown_zero {σ : Type} (f : Nat → σ → σ) (s : σ) : iterDown f 0 s = s := rfl
@[simp] theorem iterDown_succ {σ : Type} (f : Nat → σ → σ) (n : Nat) (s : σ) :
    iterDown f (n + 1) s = iterDown f n (f n s) := rfl

/-- A property of the state before iteration `i`, kept by every iteration, holds after the loop. -/
theorem iterUp_induct {σ : Type} (P : Nat → σ → Prop) (f : Nat → σ → σ) (s : σ) (n : Nat) (h0 : P 0 s)
    (hs : ∀ i t, i < n → P i t → P (i + 1) (f i t)) : P n (iterUp f n s) := by
  induction n with
  | zero => exact h0
  | succ n ih => exact hs n _ (by omega) (ih fun i t h => hs i t (by omega))

/-- A loop down that undoes a loop up step by step restores the start. -/
theorem iterDown_iterUp {σ : Type} (f g : Nat → σ → σ) (n : Nat) (h : ∀ i s, i < n → g i (f i s) = s) (s : σ) :
    iterDown g n (iterUp f n s) = s := by
  induction n with
  | zero => rfl
  | succ n ih => rw [iterUp_succ, iterDown_succ, h n _ (by omega)]; exact ih fun i s hi => h i s (by omega)

/-- A loop up that undoes a loop down step by step restores the start. -/
theorem iterUp_iterDown {σ : Type} (f g : Nat → σ → σ) (n : Nat) (h : ∀ i s, i < n → f i (g i s) = s) (s : σ) :
    iterUp f n (iterDown g n s) = s := by
  induction n generalizing s with
  | zero => rfl
  | succ n ih => rw [iterDown_succ, iterUp_succ, ih (fun i s hi => h i s (by omega)), h n _ (by omega)]

@[simp] theorem byteAt_tabulate (f : Fin 256 → Byte) (x : Byte) : byteAt (tabulate f) x = f x.toFin := by
  simp [byteAt]

@[simp] theorem boxAt_tabulate (f : Fin 8 → Block) (k : BoxIdx) : boxAt (tabulate f) k = f k.toFin := by
  simp [boxAt]

@[simp] theorem posAt_tabulate (f : Fin 2048 → Pos) (p : Pos) : posAt (tabulate f) p = f p.toFin := by
  simp [posAt]

theorem bitIndex_lt (p : Pos) : bitIndex p < 8 := Nat.mod_lt _ (by omega)

/-- A position is given by its byte index and its bit index (R11). -/
theorem pos_ext {p q : Pos} (h1 : byteIndex p = byteIndex q) (h2 : bitIndex p = bitIndex q) : p = q := by
  apply BitVec.eq_of_toNat_eq
  have h : p.toNat / 8 = q.toNat / 8 := congrArg Fin.val h1
  have h' : p.toNat % 8 = q.toNat % 8 := h2
  omega

@[simp] theorem bitAt_zero256 (p : Pos) : bitAt zero256 p = false := by simp [bitAt, zero256]

/-- After `SetBit(B, p)` position `p` is set and every other position is as before (R11). -/
theorem bitAt_setBit (b : Block) (p q : Pos) : bitAt (setBit b p) q = (decide (q = p) || bitAt b q) := by
  have hq := bitIndex_lt q
  by_cases hb : byteIndex p = byteIndex q
  · have hv : (byteIndex p).val = (byteIndex q).val := congrArg Fin.val hb
    by_cases h : q = p
    · subst h
      simp [bitAt, setBit, hq]
    · have hi : bitIndex q ≠ bitIndex p := fun e => h (pos_ext hb.symm e)
      simp only [bitAt, setBit, Fin.getElem_fin, hv, Vector.getElem_set_self, BitVec.getLsbD_or,
        BitVec.getLsbD_shiftLeft, h, decide_false, Bool.false_or]
      have : (1#8).getLsbD (bitIndex q - bitIndex p) = true → bitIndex q - bitIndex p = 0 := by
        simp [BitVec.getLsbD_one]
      by_cases hlt : bitIndex q < bitIndex p
      · simp [hlt]
      · have h1 : (1#8).getLsbD (bitIndex q - bitIndex p) = false := by
          by_contra hc
          have := this (by simpa using hc)
          omega
        simp [h1]
  · have h : q ≠ p := fun e => hb (by rw [e])
    have hv : (byteIndex p).val ≠ (byteIndex q).val := fun e => hb (Fin.ext e)
    simp [bitAt, setBit, Vector.getElem_set_ne, hv, h]

/-- Two blocks with the same bits are the same block (R11). -/
theorem block_ext_bits {a b : Block} (h : ∀ p, bitAt a p = bitAt b p) : a = b := by
  refine Vector.ext fun i hi => BitVec.eq_of_getLsbD_eq fun j hj => ?_
  have hp : (BitVec.ofNat 11 (8 * i + j)).toNat = 8 * i + j := by
    rw [BitVec.toNat_ofNat]; omega
  have := h (BitVec.ofNat 11 (8 * i + j))
  have e1 : byteIndex (BitVec.ofNat 11 (8 * i + j)) = ⟨i, hi⟩ := Fin.ext (by
    change (BitVec.ofNat 11 (8 * i + j)).toNat / 8 = i; omega)
  have e2 : bitIndex (BitVec.ofNat 11 (8 * i + j)) = j := by
    change (BitVec.ofNat 11 (8 * i + j)).toNat % 8 = j; omega
  simpa [bitAt, e1, e2] using this

/-- A rejection is a write of `ERR` or nothing (R221). -/
theorem reject_eq (e : CmdError) (s : State) : reject e s = s.setErr (if s.err = 0 then e.code else s.err) := by
  unfold reject
  split <;> rfl

theorem whenKeyed_true (f : State → State) (s : State) (h : s.keyed = true) : whenKeyed f s = f s := by
  simp [whenKeyed, h]

theorem whenKeyed_false (f : State → State) (s : State) (h : s.keyed = false) :
    whenKeyed f s = reject .notKeyed s := by
  simp [whenKeyed, h]

end Sys2Proof.Machine
end

