-- ==== Sys2Proof/Laws/Exec.lean ====
section
/-! SUPPORT. What a command can do, said once: every command answers a next state, and the four ways it can look. -/

namespace Sys2Proof.Machine

/-- The block a block command leaves in `BLK` when it executes; the block itself for the other commands. -/
def blockAfter (i : Instr) (s : State) : Block :=
  match i with
  | .subEnc r => subEncBlock s.se r s.blk
  | .subDec r => subDecBlock s.se s.sd r s.blk
  | .pbEnc p => pboxEnc s.pe p s.blk
  | .pbDec p => pboxDec s.pd p s.blk
  | .rndEnc r p => roundEnc s r p s.blk
  | .rndDec r p => roundDec s r p s.blk
  | .blkEnc => passEnc s s.blk
  | .blkDec => passDec s s.blk
  | .build | .sbEnc _ _ | .sbDec _ _ | .clrErr => s.blk

/-- The byte a lookup leaves in `RESULT` when it executes; the byte itself for the other commands. -/
def resultAfter (i : Instr) (s : State) : Byte :=
  match i with
  | .sbEnc k x => sboxEnc s k x
  | .sbDec k y => sboxDec s k y
  | .build | .subEnc _ | .subDec _ | .pbEnc _ | .pbDec _ | .rndEnc _ _ | .rndDec _ _ | .blkEnc | .blkDec
  | .clrErr => s.result

/-- Every command's next state in one expression. -/
def afterCommand (i : Instr) (s : State) : State :=
  if i = .build then construct s
  else if i = .clrErr then s.setErr 0
  else if s.keyed then (s.setBlk (blockAfter i s)).setResult (resultAfter i s)
  else s.setErr (if s.err = 0 then CmdError.notKeyed.code else s.err)

/-- Every command answers a next state, and that state is `afterCommand`. -/
theorem exec_eq (i : Instr) (s : State) : exec i s = .next (afterCommand i s) := by
  cases i <;> cases h : s.keyed <;>
    simp [exec, afterCommand, execBuild, execClrErr, clearError, execSbEnc, execSbDec, execSubEnc, execSubDec, execPbEnc,
      execPbDec, execRndEnc, execRndDec, execBlkEnc, execBlkDec, whenKeyed, h, reject_eq, blockAfter, resultAfter] <;> rfl

theorem needsTables_iff (i : Instr) : needsTables i = true ↔ i ≠ .build ∧ i ≠ .clrErr := by
  cases i <;> simp [needsTables]

/-- A table-using command on a keyed engine writes `BLK` and `RESULT` and nothing else. -/
theorem afterCommand_keyed {i : Instr} {s : State} (hi : needsTables i = true) (hs : s.keyed = true) :
    afterCommand i s = (s.setBlk (blockAfter i s)).setResult (resultAfter i s) := by
  obtain ⟨h1, h2⟩ := (needsTables_iff i).1 hi
  simp [afterCommand, h1, h2, hs]

/-- A table-using command without tables is rejected with `NOTKEYED`. -/
theorem afterCommand_unkeyed {i : Instr} {s : State} (hi : needsTables i = true) (hs : s.keyed = false) :
    afterCommand i s = rejectedState 2 s := by
  obtain ⟨h1, h2⟩ := (needsTables_iff i).1 hi
  simp [afterCommand, h1, h2, hs, rejectedState, CmdError.code]

/-- Two machine states are equal when all their fields are. -/
theorem State.eq_of_fields {s t : State} (h1 : s.key = t.key) (h2 : s.se = t.se) (h3 : s.sd = t.sd) (h4 : s.pe = t.pe)
    (h5 : s.pd = t.pd) (h6 : s.seed = t.seed) (h7 : s.blk = t.blk) (h8 : s.keyed = t.keyed) (h9 : s.err = t.err)
    (h10 : s.result = t.result) (h11 : s.pending = t.pending) (h12 : s.response = t.response)
    (h13 : s.resets = t.resets) : s = t := by
  cases s; cases t; simp_all

end Sys2Proof.Machine
end

