-- ==== Sys2Proof/Laws/Builder.lean ====
section
/-! SUPPORT. What the builder's loops do (spec/40_builder.md): where a scan ends, the scan beside the list form of R106, and
the inverse table. -/

namespace Sys2Proof.Machine

variable {n : Nat} [NeZero n]

/-- `f` slots in scan order from `cur` on. -/
def circ (cur : Fin n) : Nat → List (Fin n)
  | 0 => []
  | f + 1 => cur :: circ (cur + 1) f

/-- The unassigned slots of a list of slots. -/
def unassigned (slot : Vector (Option (Fin n)) n) (l : List (Fin n)) : List (Fin n) := l.filter fun j => slot[j].isNone

/-- What the scan does: with `cnt` counted so far it ends on the unassigned slot of rank `target - cnt - 1` in scan order
(R100, R106). -/
theorem scanFrom_spec (slot : Vector (Option (Fin n)) n) (target : Nat) : ∀ (fuel : Nat) (cur : Fin n) (cnt : Nat), cnt < target →
    ∀ c, (unassigned slot (circ cur fuel))[target - cnt - 1]? = some c → scanFrom slot target fuel cur cnt = c := by
  intro fuel
  induction fuel with
  | zero => intro cur cnt h c hc; simp [circ, unassigned] at hc
  | succ f ih =>
    intro cur cnt h c hc
    simp only [scanFrom, circ, unassigned, List.filter_cons] at *
    by_cases hs : slot[cur] = none
    · simp only [hs, if_true, Option.isNone_none] at *
      by_cases ht : cnt + 1 = target
      · have : target - cnt - 1 = 0 := by omega
        simp [this, ht] at *; exact hc
      · have : target - cnt - 1 = (target - (cnt+1) - 1) + 1 := by omega
        rw [this, List.getElem?_cons_succ] at hc
        simp only [ht, if_false]
        exact ih _ _ (by omega) c hc
    · have h2 : slot[cur].isNone = false := by cases h3 : slot[cur] <;> simp_all
      simp only [hs, if_false, h2] at *
      rw [if_neg (by omega)]
      exact ih _ _ h c hc

theorem circ_append (a : Nat) : ∀ (cur : Fin n) (b : Nat), circ cur (a + b) = circ cur a ++ circ (cur + Fin.ofNat n a) b := by
  induction a with
  | zero => intro cur b; simp [circ]
  | succ a ih =>
    intro cur b
    rw [Nat.add_right_comm]
    simp only [circ, ih, List.cons_append]
    congr 3
    apply Fin.ext
    simp [Fin.val_add, Nat.add_assoc, Nat.add_comm 1 a]

theorem circ_length : ∀ (m : Nat) (c : Fin n), (circ c m).length = m := by
  intro m
  induction m with
  | zero => intro c; rfl
  | succ m ih => intro c; simp [circ, ih]

theorem circ_getElem? (cur : Fin n) (f d : Nat) (h : d < f) : (circ cur f)[d]? = some (cur + Fin.ofNat n d) := by
  obtain ⟨r, rfl⟩ : ∃ r, f = d + (r + 1) := ⟨f - d - 1, by omega⟩
  rw [circ_append, List.getElem?_append_right (by simp [circ_length])]
  simp [circ_length, circ]

theorem circ_nodup (cur : Fin n) : (circ cur n).Nodup := by
  rw [List.nodup_iff_getElem?_ne_getElem?]
  intro i j hij hj he
  rw [circ_length] at hj
  rw [circ_getElem? _ _ _ (by omega), circ_getElem? _ _ _ hj] at he
  have := add_left_cancel (Option.some.inj he)
  have := congrArg Fin.val this
  simp [Nat.mod_eq_of_lt hj, Nat.mod_eq_of_lt (hij.trans hj)] at this
  omega

theorem mem_circ (cur x : Fin n) : x ∈ circ cur n := by
  rw [List.mem_iff_getElem?]
  refine ⟨(x - cur).val, ?_⟩
  rw [circ_getElem? _ _ _ (x - cur).isLt]
  simp

theorem circ_perm (cur : Fin n) : (circ cur n).Perm (List.finRange n) :=
  (List.perm_ext_iff_of_nodup (circ_nodup cur) (List.nodup_finRange n)).2 fun a => by simp [mem_circ]

/-- The circle from a slot on is the circle cut at that slot, its two parts exchanged. -/
theorem circ_rotate (cur c : Fin n) : ∃ A B, circ cur n = A ++ c :: B ∧ circ c n = c :: B ++ A := by
  have hd := (c - cur).isLt
  generalize hdd : (c - cur).val = d at hd
  have hc : cur + Fin.ofNat n d = c := by rw [← hdd]; simp
  refine ⟨circ cur d, circ (c + 1) (n - d - 1), ?_, ?_⟩
  · have e : circ cur n = circ cur (d + ((n - d - 1) + 1)) := congrArg _ (by omega)
    rw [e, circ_append, hc]; rfl
  · have e : circ c n = circ c (((n - d - 1) + 1) + d) := congrArg _ (by omega)
    rw [e, circ_append]
    congr 2
    rw [← hc]
    apply Fin.ext
    simp only [Fin.val_add, Fin.val_ofNat]
    have := cur.isLt
    simp
    rw [show cur.val + d + (n - d - 1 + 1) = cur.val + n by omega]
    simp [Nat.mod_eq_of_lt this]

/-- The scan's scratch after `i` iterations and R106's list form at the same point. -/
structure Linked (i : Nat) (st : Scan n) (ls : List (Fin n) × Vector (Fin n) n) : Prop where
  free : unassigned st.slot (circ st.cur n) = ls.1
  enc : ∀ (j : Fin n) (v : Fin n), st.slot[j] = some v → ls.2[j] = v
  len : ls.1.length = n - i

omit [NeZero n] in
theorem target_pos (pw : Fin n → Nat) (i : Fin n) : 1 ≤ scanTarget pw i ∧ scanTarget pw i ≤ n - i.val ∧ pw i % (n - i) < n - i := by
  have := Nat.mod_lt (pw i) (show 0 < n - i.val by omega)
  unfold scanTarget; omega

/-- One iteration keeps the link, and takes the slot that R106's list names. -/
theorem linked_step (pw : Fin n → Nat) (i : Fin n) (st ls) (h : Linked i.val st ls) :
    st.slot[scanFrom st.slot (scanTarget pw i) n st.cur 0] = none ∧
    ls.1[pw i % (n - i)]? = some (scanFrom st.slot (scanTarget pw i) n st.cur 0) ∧
    Linked (i.val + 1) (Scan.assign pw i st) (listAssign pw i ls) := by
  obtain ⟨h1, h2, h3⟩ := target_pos pw i
  set t := pw i % (n - i.val) with ht
  have hlt : t < ls.1.length := by rw [h.len]; exact h3
  obtain ⟨c, hc⟩ : ∃ c, ls.1[t]? = some c := ⟨_, List.getElem?_eq_getElem hlt⟩
  have hscan : scanFrom st.slot (scanTarget pw i) n st.cur 0 = c := by
    apply scanFrom_spec _ _ _ _ _ (by omega)
    rw [h.free]; simpa [scanTarget] using hc
  have hcm : c ∈ unassigned st.slot (circ st.cur n) := by rw [h.free]; exact List.mem_of_getElem? hc
  have hcn : st.slot[c] = none := by simpa [unassigned] using (List.mem_filter.1 hcm).2
  refine ⟨by simp only [hscan]; exact hcn, by rw [hscan]; exact hc, ?_⟩
  obtain ⟨A, B, hA, hB⟩ := circ_rotate st.cur c
  have hnd := circ_nodup st.cur
  rw [hA] at hnd
  have hcA : c ∉ A := by
    intro hm; exact (List.disjoint_of_nodup_append hnd) hm (by simp)
  have hcB : c ∉ B := by
    have := (List.nodup_append.1 hnd).2.1; simp at this; exact this.1
  have hL : ls.1 = unassigned st.slot A ++ c :: unassigned st.slot B := by
    rw [← h.free, hA]; simp only [unassigned, List.filter_append, List.filter_cons, hcn, Option.isNone_none, if_true]
  have hndL : ls.1.Nodup := by rw [← h.free]; exact (circ_nodup _).filter _
  have htA : t = (unassigned st.slot A).length := by
    have e : ls.1[(unassigned st.slot A).length]? = some c := by rw [hL]; simp
    have := List.nodup_iff_getElem?_ne_getElem?.1 hndL
    rcases Nat.lt_trichotomy t (unassigned st.slot A).length with h' | h' | h'
    · exact absurd (hc.trans e.symm) (this _ _ h' (by rw [hL]; simp))
    · exact h'
    · exact absurd (e.trans hc.symm) (this _ _ h' hlt)
  have hset : ∀ l : List (Fin n), c ∉ l → unassigned (st.slot.set c (some i)) l = unassigned st.slot l := by
    intro l hl
    apply List.filter_congr
    intro x hx
    have : c.val ≠ x.val := fun e => hl (by rw [Fin.ext e]; exact hx)
    simp [this]
  have hla : listAssign pw i ls = (ls.1.drop (t+1) ++ ls.1.take t, ls.2.set c i) := by
    simp only [listAssign, ← ht, hc]
  have hsa : Scan.assign pw i st = ⟨st.slot.set c (some i), c⟩ := by
    simp only [Scan.assign, hscan]
  rw [hla, hsa]
  refine ⟨?_, ?_, ?_⟩
  · simp only
    rw [hB, hL, htA]
    simp only [List.cons_append]
    have : unassigned (st.slot.set c (some i)) (c :: (B ++ A)) = unassigned (st.slot.set c (some i)) (B ++ A) := by
      simp [unassigned]
    rw [this, hset _ (by simp [hcA, hcB])]
    simp [unassigned]
  · intro j v hv
    simp only [Fin.getElem_fin, Vector.getElem_set] at hv ⊢
    split_ifs at hv ⊢ with hj
    · exact Option.some.inj hv
    · exact h.enc j v hv
  · simp only [List.length_append, List.length_drop, List.length_take]
    have := h.len
    omega

/-- R106's list form after `m` iterations. -/
def listAfter (pw : Fin n → Nat) (m : Nat) : List (Fin n) × Vector (Fin n) n :=
  iterUp (fun i => listAssign pw (Fin.ofNat n i)) m (List.ofFn id, tabulate fun _ => 0)

theorem circ_zero : circ (0 : Fin n) n = List.ofFn id := by
  apply List.ext_getElem?
  intro d
  by_cases h : d < n
  · rw [circ_getElem? _ _ _ h]; simp [h]
    apply Fin.ext; simp [Nat.mod_eq_of_lt h]
  · rw [List.getElem?_eq_none (by rw [circ_length]; omega), List.getElem?_eq_none (by simp; omega)]

/-- The scan and the list form agree after every iteration (R106). -/
theorem linked_after (pw : Fin n → Nat) (m : Nat) (hm : m ≤ n) : Linked m (Scan.after pw m) (listAfter pw m) := by
  induction m with
  | zero =>
    refine ⟨?_, ?_, ?_⟩
    · simp only [Scan.after, listAfter, iterUp_zero, Scan.start]
      rw [circ_zero]
      apply List.filter_eq_self.2
      intro a _; simp
    · intro j v h; simp [Scan.after, Scan.start] at h
    · simp [listAfter]
  | succ m ih =>
    have := (linked_step pw (Fin.ofNat n m) _ _ (by simpa [Nat.mod_eq_of_lt (show m < n by omega)] using ih (by omega))).2.2
    have e : (Fin.ofNat n m).val = m := by simp [Nat.mod_eq_of_lt (show m < n by omega)]
    rw [e] at this
    exact this

/-- After `N` iterations no slot is unassigned (R102). -/
theorem full (pw : Fin n → Nat) (j : Fin n) : ∃ v, (Scan.after pw n).slot[j] = some v := by
  have h := linked_after pw n le_rfl
  have h0 : (listAfter pw n).1 = [] := List.eq_nil_of_length_eq_zero (by rw [h.len]; omega)
  have h1 := h.free
  rw [h0] at h1
  have := List.filter_eq_nil_iff.1 h1 j (mem_circ _ j)
  cases h2 : (Scan.after pw n).slot[j] <;> simp_all


theorem ofNat_val {m : Nat} (h : m < n) : (Fin.ofNat n m).val = m := Nat.mod_eq_of_lt h

/-- Iteration `i` puts `i` on a slot that was unassigned and leaves the other slots alone. -/
theorem after_succ (pw : Fin n → Nat) (i : Fin n) :
    ∃ c : Fin n, (Scan.after pw i.val).slot[c] = none ∧
      ∀ j : Fin n, (Scan.after pw (i.val + 1)).slot[j] = if c = j then some i else (Scan.after pw i.val).slot[j] := by
  refine ⟨_, (linked_step pw i _ _ (linked_after pw i.val i.isLt.le)).1, fun j => ?_⟩
  have e : Fin.ofNat n i.val = i := Fin.ext (ofNat_val i.isLt)
  have hs : Scan.after pw (i.val + 1) = Scan.assign pw i (Scan.after pw i.val) := by
    rw [Scan.after, iterUp_succ, e]; rfl
  rw [hs, Scan.assign]
  simp only [Fin.getElem_fin, Vector.getElem_set, Fin.ext_iff]

/-- An assigned slot keeps its value (R105). -/
theorem after_keeps (pw : Fin n → Nat) {m k : Nat} (h : m + k ≤ n) {j v : Fin n}
    (hj : (Scan.after pw m).slot[j] = some v) : (Scan.after pw (m + k)).slot[j] = some v := by
  induction k with
  | zero => exact hj
  | succ k ih =>
    obtain ⟨c, hc, hs⟩ := after_succ pw ⟨m + k, by omega⟩
    have hk := ih (by omega) hj
    rw [← Nat.add_assoc, hs j, if_neg]
    · exact hk
    · rintro rfl
      rw [hc] at hk
      cases hk

/-- After `m` iterations each of `0, ..., m-1` stands on some slot (R103 (a)). -/
theorem after_onto (pw : Fin n → Nat) {m : Nat} (hm : m ≤ n) {v : Fin n} (hv : v.val < m) :
    ∃ j : Fin n, (Scan.after pw m).slot[j] = some v := by
  obtain ⟨c, -, hs⟩ := after_succ pw v
  refine ⟨c, ?_⟩
  have := after_keeps pw (m := v.val + 1) (k := m - (v.val + 1)) (by omega) (j := c) (v := v) (by rw [hs c, if_pos rfl])
  rwa [Nat.add_sub_cancel' (by omega)] at this

/-- The loop that inverts a table without repeats (R100). -/
theorem invertTable_spec (enc : Vector (Fin n) n) (hi : Function.Injective fun x : Fin n => enc[x]) (x : Fin n) :
    (invertTable enc)[enc[x]] = x := by
  have key : ∀ m, m ≤ n → ∀ x : Fin n, x.val < m →
      (iterUp (fun j (dec : Vector (Fin n) n) => dec.set (enc[Fin.ofNat n j]) (Fin.ofNat n j)) m
        (tabulate fun _ => 0))[enc[x]] = x := by
    intro m
    induction m with
    | zero => intro _ x h; omega
    | succ m ih =>
      intro hm x hx
      rw [iterUp_succ]
      simp only [Fin.getElem_fin, Vector.getElem_set]
      split_ifs with h
      · exact hi (Fin.ext h)
      · refine ih (by omega) x (lt_of_le_of_ne (by omega) fun hxm => h ?_)
        have : x = Fin.ofNat n m := Fin.ext (by rw [ofNat_val (by omega), hxm])
        simp [this]
  exact key n le_rfl x x.isLt

end Sys2Proof.Machine
end

