-- ==== Sys2Proof/Laws/Bus.lean ====
section
/-! SUPPORT. What the bus operations do: which accesses are served, words against the bytes of an array, and a step against the
event it makes. -/

namespace Sys2Proof.Machine

/-- A step makes the first access of the list. -/
theorem step_cons {s : State} {e : HostEvent} {rest : List HostEvent} (h : s.pending = e :: rest) :
    step s = hostEvent e (s.setPending rest) := by
  simp [step, h]

theorem step_nil {s : State} (h : s.pending = []) : step s = .next s := by
  simp [step, h]

/-- A read has a value exactly when R52 allows it. -/
theorem memRead_isSome (s : State) (off n : Nat) :
    (memRead s off n).isSome = (HostEvent.read off n).legal := by
  simp only [HostEvent.legal, readableOffset]
  unfold memRead
  repeat' split
  all_goals
    simp
    try omega
/-- Away from `CMD`, an aligned 32-bit write lands in a window exactly when R52 allows it. -/
theorem windowWrite_isSome (s : State) (off n : Nat) (v : Word) (h0 : off ≠ 0) (h4 : n = 4) (ho : off % 4 = 0) :
    (windowWrite s off v).isSome = (HostEvent.write off n v).legal := by
  simp only [HostEvent.legal, writableOffset]
  unfold windowWrite
  repeat' split
  all_goals
    simp
    try omega

/-- A word is its four bytes (R53). -/
theorem word_of_bytes (v : Word) :
    (wordByte v 3 ++ wordByte v 2 ++ wordByte v 1 ++ wordByte v 0 : BitVec 32) = v := by
  apply BitVec.eq_of_toNat_eq
  have := v.isLt
  have h (m : Nat) := (wordByte v m).isLt
  simp only [BitVec.toNat_append]
  rw [← Nat.shiftLeft_add_eq_or_of_lt (h 2), ← Nat.shiftLeft_add_eq_or_of_lt (h 1),
    ← Nat.shiftLeft_add_eq_or_of_lt (h 0)]
  simp only [Nat.shiftLeft_eq, wordByte, BitVec.extractLsb'_toNat, Nat.shiftRight_eq_div_pow]
  omega

/-- A word put into an array is read back (R53, R55). -/
theorem wordOf_putWord {n : Nat} (a : Vector Byte n) (j : Nat) (v : Word) (h : 4 * j + 3 < n) :
    wordOf (putWord a j v h) j h = v := by
  have := word_of_bytes v
  simp only [wordOf, putWord]
  simpa [Vector.getElem_set] using this

/-- The bytes of an array after a word was put into it: the four of the word, the others as before. -/
theorem getElem_putWord {n : Nat} (a : Vector Byte n) (j : Nat) (v : Word) (h : 4 * j + 3 < n) (i : Nat) (hi : i < n) :
    (putWord a j v h)[i] = if i / 4 = j then wordByte v (i % 4) else a[i] := by
  simp only [putWord, Vector.getElem_set]
  split_ifs <;> first | rfl | omega | (congr 1; omega)

/-- Byte `m` of word `j` is element `4j + m` (R53). -/
theorem wordOf_byte {n : Nat} (a : Vector Byte n) (j : Nat) (h : 4 * j + 3 < n) (m : Nat) (hm : m < 4) :
    (wordOf a j h).extractLsb' (8 * m) 8 = a[4*j+m] := by
  apply BitVec.eq_of_toNat_eq
  have h' (i : Nat) (hi : i < n) := (a[i]).isLt
  have := h' (4*j) (by omega)
  have := h' (4*j+1) (by omega)
  have := h' (4*j+2) (by omega)
  have := h' (4*j+3) (by omega)
  simp only [BitVec.extractLsb'_toNat, wordOf, BitVec.toNat_append]
  rw [← Nat.shiftLeft_add_eq_or_of_lt (h' _ _), ← Nat.shiftLeft_add_eq_or_of_lt (h' _ _),
    ← Nat.shiftLeft_add_eq_or_of_lt (h' _ _)]
  simp only [Nat.shiftLeft_eq, Nat.shiftRight_eq_div_pow]
  interval_cases m <;> (try simp only [Nat.add_zero]) <;> omega

end Sys2Proof.Machine
end

