-- ==== Sys2Proof/Laws/Encoding.lean ====
section
/-! SUPPORT. The fields of a command word, each read back from the word it was put in (spec/30_encoding.md R81, R85). -/

namespace Sys2Proof

/-- The word as a sum (R85). -/
theorem commandWord_toNat (op : BitVec 4) (k : BoxIdx) (a : Pos) :
    (commandWord op k a).toNat = op.toNat * 2^28 + k.toNat * 2^24 + a.toNat := by
  have h1 := op.isLt
  have h2 := k.isLt
  have h3 := a.isLt
  simp only [commandWord, BitVec.toNat_append, BitVec.toNat_ofNat]
  have e1 : (op.toNat <<< 1 ||| 0 % 2^1) = op.toNat * 2 := by simp [Nat.shiftLeft_eq]
  have e2 : ((op.toNat * 2) <<< 3 ||| k.toNat) = op.toNat * 2^4 + k.toNat := by
    rw [← Nat.shiftLeft_add_eq_or_of_lt (by omega), Nat.shiftLeft_eq]
    omega
  have e3 : ((op.toNat * 2^4 + k.toNat) <<< 13 ||| 0 % 2^13) = (op.toNat * 2^4 + k.toNat) * 2^13 := by
    simp [Nat.shiftLeft_eq]
  rw [e1, e2, e3, ← Nat.shiftLeft_add_eq_or_of_lt h3, Nat.shiftLeft_eq]
  omega

@[simp] theorem commandWord_op (op : BitVec 4) (k : BoxIdx) (a : Pos) : opField (commandWord op k a) = op := by
  have h1 := op.isLt
  have h2 := k.isLt
  have h3 := a.isLt
  apply BitVec.eq_of_toNat_eq
  simp only [opField, BitVec.extractLsb'_toNat, commandWord_toNat, Nat.shiftRight_eq_div_pow]
  omega

@[simp] theorem commandWord_k (op : BitVec 4) (k : BoxIdx) (a : Pos) : kField (commandWord op k a) = k := by
  have h1 := op.isLt
  have h2 := k.isLt
  have h3 := a.isLt
  apply BitVec.eq_of_toNat_eq
  simp only [kField, BitVec.extractLsb'_toNat, commandWord_toNat, Nat.shiftRight_eq_div_pow]
  omega

@[simp] theorem commandWord_arg (op : BitVec 4) (k : BoxIdx) (a : Pos) : argField (commandWord op k a) = a := by
  have h1 := op.isLt
  have h2 := k.isLt
  have h3 := a.isLt
  apply BitVec.eq_of_toNat_eq
  simp only [argField, BitVec.extractLsb'_toNat, commandWord_toNat, Nat.shiftRight_eq_div_pow]
  omega

@[simp] theorem commandWord_z27 (op : BitVec 4) (k : BoxIdx) (a : Pos) : z27Field (commandWord op k a) = 0 := by
  have h1 := op.isLt
  have h2 := k.isLt
  have h3 := a.isLt
  apply BitVec.eq_of_toNat_eq
  simp only [z27Field, BitVec.extractLsb'_toNat, commandWord_toNat, Nat.shiftRight_eq_div_pow, BitVec.ofNat_eq_ofNat,
    BitVec.toNat_ofNat]
  omega

@[simp] theorem commandWord_z23 (op : BitVec 4) (k : BoxIdx) (a : Pos) : z23Field (commandWord op k a) = 0 := by
  have h1 := op.isLt
  have h2 := k.isLt
  have h3 := a.isLt
  apply BitVec.eq_of_toNat_eq
  simp only [z23Field, BitVec.extractLsb'_toNat, commandWord_toNat, Nat.shiftRight_eq_div_pow, BitVec.ofNat_eq_ofNat,
    BitVec.toNat_ofNat]
  omega

/-- A word with zero reserved fields is the word of its three other fields. -/
theorem commandWord_fields (w : Word) (h1 : z27Field w = 0) (h2 : z23Field w = 0) :
    commandWord (opField w) (kField w) (argField w) = w := by
  have h1 := congrArg BitVec.toNat h1
  have h2 := congrArg BitVec.toNat h2
  have h3 := w.isLt
  apply BitVec.eq_of_toNat_eq
  rw [commandWord_toNat]
  simp only [opField, kField, argField, z27Field, z23Field, BitVec.extractLsb'_toNat, Nat.shiftRight_eq_div_pow,
    BitVec.ofNat_eq_ofNat, BitVec.toNat_ofNat] at *
  omega

/-- An 11-bit argument made of a high part and a byte gives both back (R81, R84). -/
theorem argument_parts (h : BitVec 3) (x : Byte) : argHigh (h ++ x) = h ∧ argByte (h ++ x) = x := by
  have h1 := h.isLt
  have h2 := x.isLt
  have e : (h ++ x : BitVec 11).toNat = h.toNat * 2^8 + x.toNat := by
    rw [BitVec.toNat_append, ← Nat.shiftLeft_add_eq_or_of_lt h2, Nat.shiftLeft_eq]
  constructor <;> apply BitVec.eq_of_toNat_eq <;>
    simp only [argHigh, argByte, BitVec.extractLsb'_toNat, Nat.shiftRight_eq_div_pow, e] <;>
    omega

/-- An argument with a zero high part is the argument of its byte. -/
theorem byteArg_argByte (a : Pos) (h : argHigh a = 0) : byteArg (argByte a) = a := by
  have h1 := congrArg BitVec.toNat h
  have h3 := a.isLt
  have h2 := (argByte a).isLt
  apply BitVec.eq_of_toNat_eq
  have e : (byteArg (argByte a)).toNat = (argByte a).toNat := by
    rw [byteArg, BitVec.toNat_append]; simp
  rw [e]
  simp only [argHigh, argByte, BitVec.extractLsb'_toNat, Nat.shiftRight_eq_div_pow, BitVec.ofNat_eq_ofNat,
    BitVec.toNat_ofNat] at *
  omega

theorem byteArg_toNat (x : Byte) : (byteArg x).toNat = x.toNat := by
  rw [byteArg, BitVec.toNat_append]
  simp

theorem Instr.wellFormed_true (i : Instr) : i.wellFormed = true := by
  cases i <;>
    simp [Instr.wellFormed, CmdLine.wellFormed, Instr.line, Instr.mnemonic, Mnemonic.format, Instr.operands,
      Format.accepts, boxInRange, byteInRange, seedInRange] <;> omega

end Sys2Proof
end

