-- ==== Sys2Proof/Laws/PBox.lean ====
section
/-! SUPPORT. What the PBox's loop does, said once for every way of moving bits (spec/42_pbox.md R144, R145). -/

namespace Sys2Proof.Machine

/-- A bit of the output is set exactly when some set bit of the input moves there. -/
theorem bitAt_scatter (move : Pos → Pos) (b : Block) (d : Pos) :
    bitAt (scatter move b) d = true ↔ ∃ p, bitAt b p = true ∧ move p = d := by
  have key : ∀ m, m ≤ 2048 → (bitAt (iterUp (fun p out =>
      if bitAt b (BitVec.ofNat 11 p) then setBit out (move (BitVec.ofNat 11 p)) else out) m zero256) d = true ↔
      ∃ p : Pos, p.toNat < m ∧ bitAt b p = true ∧ move p = d) := by
    intro m
    induction m with
    | zero => intro _; simp
    | succ m ih =>
      intro hm
      have hval : (BitVec.ofNat 11 m).toNat = m := by rw [BitVec.toNat_ofNat]; omega
      have hsplit : ∀ p : Pos, p.toNat < m + 1 ↔ p = BitVec.ofNat 11 m ∨ p.toNat < m := fun p =>
        ⟨fun h => (Nat.lt_succ_iff_lt_or_eq.1 h).symm.imp (fun h => BitVec.eq_of_toNat_eq (by rw [h, hval])) id,
          fun h => h.elim (fun h => by rw [h, hval]; omega) fun h => by omega⟩
      simp only [hsplit, iterUp_succ, or_and_right, exists_or, exists_eq_left]
      split_ifs with hb
      · rw [bitAt_setBit, Bool.or_eq_true, ih (by omega)]
        rw [decide_eq_true_iff]
        exact or_congr ⟨fun h => ⟨hb, h.symm⟩, fun h => h.2.symm⟩ Iff.rfl
      · rw [ih (by omega)]
        simp [hb]
  rw [scatter, key 2048 le_rfl]
  exact exists_congr fun p => ⟨fun h => h.2, fun h => ⟨p.isLt, h⟩⟩

/-- A way of moving bits that has an inverse moves every bit to one place. -/
theorem bitAt_scatter_bij (move back : Pos → Pos) (h : ∀ p, back (move p) = p) (h' : ∀ d, move (back d) = d) (b : Block)
    (d : Pos) : bitAt (scatter move b) d = bitAt b (back d) := by
  rw [Bool.eq_iff_iff, bitAt_scatter]
  exact ⟨fun ⟨p, hp, e⟩ => by rw [← e, h]; exact hp, fun hb => ⟨back d, hb, h' d⟩⟩

end Sys2Proof.Machine
end

