-- ==== Sys2Proof/Laws/PerInstr.lean ====
section
/-! SUPPORT. Statements made for every command, one lemma per constructor of `Instr`. Family `ReservedFieldsZero`: the word of a
command has zero in both reserved fields and its own opcode in `op` (R81, R83, R85). -/

namespace Sys2Proof.Laws.ReservedFieldsZero

/-- The reserved fields of a command's word are zero and its opcode is the command's. -/
def Statement (i : Instr) : Prop :=
  z27Field (encode i) = 0 ∧ z23Field (encode i) = 0 ∧ opField (encode i) = i.mnemonic.opcode

theorem build : Statement .build := by simp [Statement, encode]
theorem sbEnc (k : BoxIdx) (x : Byte) : Statement (.sbEnc k x) := by simp [Statement, encode]
theorem sbDec (k : BoxIdx) (y : Byte) : Statement (.sbDec k y) := by simp [Statement, encode]
theorem subEnc (r : BoxIdx) : Statement (.subEnc r) := by simp [Statement, encode]
theorem subDec (r : BoxIdx) : Statement (.subDec r) := by simp [Statement, encode]
theorem pbEnc (s : Pos) : Statement (.pbEnc s) := by simp [Statement, encode]
theorem pbDec (s : Pos) : Statement (.pbDec s) := by simp [Statement, encode]
theorem rndEnc (r : BoxIdx) (s : Pos) : Statement (.rndEnc r s) := by simp [Statement, encode]
theorem rndDec (r : BoxIdx) (s : Pos) : Statement (.rndDec r s) := by simp [Statement, encode]
theorem blkEnc : Statement .blkEnc := by simp [Statement, encode]
theorem blkDec : Statement .blkDec := by simp [Statement, encode]
theorem clrErr : Statement .clrErr := by simp [Statement, encode]

end Sys2Proof.Laws.ReservedFieldsZero
end

