-- ==== Sys2Proof/Laws/Step.lean ====
section
/-! SUPPORT. What one step of the machine can do, said once; what a window write, `BUILD` and the reset input leave. -/

namespace Sys2Proof.Machine

/-- A step that answers a next state is one of these: no access to come; a read answered with data; a write answered with an
error; a command written to `CMD`; an illegal word written to `CMD`; a window write; the reset input. -/
theorem step_cases {s t : State} (h : step s = .next t) :
    (s.pending = [] ∧ t = s) ∨
    ∃ e rest, s.pending = e :: rest ∧
      ((∃ off n w, e = .read off n ∧ memRead (s.setPending rest) off n = some w ∧
        t = (s.setPending rest).setResponse (.data w)) ∨
       (∃ off n v, e = .write off n v ∧ t = (s.setPending rest).setResponse .error) ∨
       (∃ w i, e = .write 0x0000 4 w ∧ decode w = .ok i ∧ t = afterCommand i ((s.setPending rest).setResponse .ok)) ∨
       (∃ w x, e = .write 0x0000 4 w ∧ decode w = .error x ∧
        t = reject .illCmd ((s.setPending rest).setResponse .ok)) ∨
       (∃ off v u, e = .write off 4 v ∧ off ≠ 0 ∧ windowWrite (s.setPending rest) off v = some u ∧
        t = u.setResponse .ok) ∨
       (isReset e = true ∧ ∃ w r, t = applyReset w r (s.setPending rest))) := by
  cases hp : s.pending with
  | nil => rw [step_nil hp] at h; exact .inl ⟨rfl, (Host.Outcome.next.inj h).symm⟩
  | cons e rest =>
    rw [step_cons hp] at h
    refine .inr ⟨e, rest, rfl, ?_⟩
    cases e with
    | read off n =>
      simp only [hostEvent] at h
      split at h
      · exact .inl ⟨_, _, _, rfl, ‹_›, (Host.Outcome.next.inj h).symm⟩
      · cases h
    | write off n v =>
      simp only [hostEvent, memWrite] at h
      split at h
      · exact .inr (.inl ⟨_, _, _, rfl, (Host.Outcome.next.inj h).symm⟩)
      · rename_i h1
        obtain rfl : n = 4 := by omega
        split at h
        · rename_i h2
          subst h2
          unfold execute at h
          split at h
          · rw [exec_eq] at h
            exact .inr (.inr (.inl ⟨_, _, rfl, ‹_›, (Host.Outcome.next.inj h).symm⟩))
          · exact .inr (.inr (.inr (.inl ⟨_, _, rfl, ‹_›, (Host.Outcome.next.inj h).symm⟩)))
        · split at h
          · exact .inr (.inr (.inr (.inr (.inl ⟨_, _, _, rfl, ‹_›, ‹_›, (Host.Outcome.next.inj h).symm⟩))))
          · exact .inr (.inl ⟨_, _, _, rfl, (Host.Outcome.next.inj h).symm⟩)
    | reset => exact .inr (.inr (.inr (.inr (.inr ⟨rfl, _, _, (Host.Outcome.next.inj h).symm⟩))))
    | resetDuring w => exact .inr (.inr (.inr (.inr (.inr ⟨rfl, _, _, (Host.Outcome.next.inj h).symm⟩))))

/-- A window write changes one of the three arrays. -/
theorem windowWrite_cases {s u : State} {off : Nat} {v : Word} (h : windowWrite s off v = some u) :
    (∃ b, u = s.setBlk b) ∨ (∃ b, u = s.setSeed b) ∨ ∃ k, u = s.setKey k := by
  unfold windowWrite at h
  split at h
  · exact .inl ⟨_, (Option.some.inj h).symm⟩
  · split at h
    · exact .inr (.inl ⟨_, (Option.some.inj h).symm⟩)
    · split at h
      · exact .inr (.inr ⟨_, (Option.some.inj h).symm⟩)
      · cases h

@[simp] theorem applyReset_keyed (w : Option Word) (r : BusResponse) (s : State) :
    (applyReset w r s).keyed = false := by
  simp only [applyReset, State.afterReset]
@[simp] theorem applyReset_err (w : Option Word) (r : BusResponse) (s : State) :
    (applyReset w r s).err = 0 := by
  simp only [applyReset, State.afterReset]
@[simp] theorem applyReset_result (w : Option Word) (r : BusResponse) (s : State) :
    (applyReset w r s).result = 0 := by
  simp only [applyReset, State.afterReset]
@[simp] theorem applyReset_pending (w : Option Word) (r : BusResponse) (s : State) :
    (applyReset w r s).pending = s.pending := by
  simp only [applyReset, State.afterReset]

@[simp] theorem construct_key (s : State) : (construct s).key = s.key := rfl
@[simp] theorem construct_seed (s : State) : (construct s).seed = zero256 := rfl
@[simp] theorem construct_blk (s : State) : (construct s).blk = s.blk := rfl
@[simp] theorem construct_keyed (s : State) : (construct s).keyed = true := rfl
@[simp] theorem construct_err (s : State) : (construct s).err = s.err := rfl
@[simp] theorem construct_result (s : State) : (construct s).result = s.result := rfl
@[simp] theorem construct_pending (s : State) : (construct s).pending = s.pending := rfl
@[simp] theorem construct_response (s : State) : (construct s).response = s.response := rfl
@[simp] theorem construct_resets (s : State) : (construct s).resets = s.resets := rfl

/-- The tables `BUILD` leaves, entry by entry (R104). -/
theorem construct_sboxEnc (s : State) (k : BoxIdx) (x : Byte) :
    sboxEnc (construct s) k x = BitVec.ofFin (buildPerm (boxSegment s.key k.toFin)).1[x.toFin] := by
  show byteAt (boxAt (tabulate fun k => (tabulate (buildBox s.key))[k].1) k) x = _
  rw [boxAt_tabulate, Fin.getElem_fin, getElem_tabulate]
  exact byteAt_tabulate _ _

theorem construct_sboxDec (s : State) (k : BoxIdx) (y : Byte) :
    sboxDec (construct s) k y = BitVec.ofFin (buildPerm (boxSegment s.key k.toFin)).2[y.toFin] := by
  show byteAt (boxAt (tabulate fun k => (tabulate (buildBox s.key))[k].2) k) y = _
  rw [boxAt_tabulate, Fin.getElem_fin, getElem_tabulate]
  exact byteAt_tabulate _ _

theorem construct_pe (s : State) (p : Pos) :
    posAt (construct s).pe p = BitVec.ofFin (buildPerm (pboxSegment s.key)).1[p.toFin] :=
  posAt_tabulate _ _

theorem construct_pd (s : State) (q : Pos) :
    posAt (construct s).pd q = BitVec.ofFin (buildPerm (pboxSegment s.key)).2[q.toFin] :=
  posAt_tabulate _ _

end Sys2Proof.Machine
end

