-- ==== Sys2Proof/Laws/Procedures.lean ====
section
/-! SUPPORT. What a list of host accesses does, access by access. -/

namespace Sys2Proof.Machine

@[simp] theorem issueAll_nil (s : State) : issueAll [] s = .ok s := rfl

/-- Two lists of accesses one after the other (R62). -/
theorem issueAll_append (a b : List HostEvent) (s : State) :
    issueAll (a ++ b) s = match issueAll a s with | .ok t => issueAll b t | .error x => .error x := by
  induction a generalizing s with
  | nil => rfl
  | cons e a ih =>
    simp only [List.cons_append, issueAll]
    cases issue e s <;> simp [ih]

/-- An aligned write that lands in a window is that window write, answered normally (R55). -/
theorem issue_windowWrite {s u : State} {off : Nat} {v : Word} (h0 : off ≠ 0) (h4 : off % 4 = 0)
    (h : windowWrite s off v = some u) : issue (.write off 4 v) s = .ok (u.setResponse .ok) := by
  simp [issue, hostEvent, memWrite, h0, h4, h]

/-- A write of a word to `CMD` that decodes is that command, answered normally (R180). -/
theorem issue_command {s : State} {w : Word} {i : Instr} (h : decode w = .ok i) :
    issue (.write 0x0000 4 w) s = .ok (afterCommand i (s.setResponse .ok)) := by
  simp [issue, hostEvent, memWrite, execute, h, exec_eq]

/-- A read with a value leaves the state as it is but for the response (R55). -/
theorem issue_read {s : State} {off n : Nat} {w : Word} (h : memRead s off n = some w) :
    issue (.read off n) s = .ok (s.setResponse (.data w)) := by
  simp [issue, hostEvent, h]

end Sys2Proof.Machine
end

