-- ==== Sys2Proof/Laws/Spn.lean ====
section
/-! SUPPORT. Rounds and passes see only the tables and the block: what a proof needs to follow a sequence of block
commands without unfolding the passes. -/

namespace Sys2Proof.Machine

/-- The commands that write `BLK`. -/
def writesBlk : Instr → Bool
  | .subEnc _ | .subDec _ | .pbEnc _ | .pbDec _ | .rndEnc _ _ | .rndDec _ _ | .blkEnc | .blkDec => true
  | .build | .sbEnc _ _ | .sbDec _ _ | .clrErr => false

/-- A block command on a keyed engine writes `BLK` and nothing else. -/
theorem afterCommand_block {i : Instr} {s : State} (hi : writesBlk i = true) (hs : s.keyed = true) :
    afterCommand i s = s.setBlk (blockAfter i s) := by
  cases i <;> simp [writesBlk] at hi <;> simp [afterCommand, hs, resultAfter] <;> rfl

@[simp] theorem State.setBlk_setBlk (s : State) (a b : Block) : (s.setBlk a).setBlk b = s.setBlk b := rfl
@[simp] theorem State.setBlk_self (s : State) : s.setBlk s.blk = s := rfl

@[simp] theorem sboxEnc_setBlk (s : State) (b : Block) (k : BoxIdx) (x : Byte) :
    sboxEnc (s.setBlk b) k x = sboxEnc s k x := rfl
@[simp] theorem sboxDec_setBlk (s : State) (b : Block) (k : BoxIdx) (y : Byte) :
    sboxDec (s.setBlk b) k y = sboxDec s k y := rfl
@[simp] theorem roundEnc_setBlk (s : State) (a : Block) (r : BoxIdx) (p : Pos) (b : Block) :
    roundEnc (s.setBlk a) r p b = roundEnc s r p b := rfl
@[simp] theorem roundDec_setBlk (s : State) (a : Block) (r : BoxIdx) (p : Pos) (b : Block) :
    roundDec (s.setBlk a) r p b = roundDec s r p b := rfl
@[simp] theorem passEnc_setBlk (s : State) (a b : Block) : passEnc (s.setBlk a) b = passEnc s b := rfl
@[simp] theorem passDec_setBlk (s : State) (a b : Block) : passDec (s.setBlk a) b = passDec s b := rfl
@[simp] theorem passEnc_setSeed (s : State) (a b : Block) : passEnc (s.setSeed a) b = passEnc s b := rfl
@[simp] theorem passDec_setSeed (s : State) (a b : Block) : passDec (s.setSeed a) b = passDec s b := rfl
@[simp] theorem passEnc_setResponse (s : State) (r : BusResponse) (b : Block) :
    passEnc (s.setResponse r) b = passEnc s b := rfl
@[simp] theorem passDec_setResponse (s : State) (r : BusResponse) (b : Block) :
    passDec (s.setResponse r) b = passDec s b := rfl

/-- A pass sees the tables only: two states with the same forward tables encode a block alike. -/
theorem passEnc_congr {s u : State} (hse : u.se = s.se) (hpe : u.pe = s.pe) (b : Block) : passEnc u b = passEnc s b := by
  unfold passEnc roundEnc
  rw [hse, hpe]

/-- The decode pass sees `SE`, `SD` and `PD` only. -/
theorem passDec_congr {s u : State} (hse : u.se = s.se) (hsd : u.sd = s.sd) (hpd : u.pd = s.pd) (b : Block) :
    passDec u b = passDec s b := by
  unfold passDec roundDec
  rw [hse, hsd, hpd]

@[simp] theorem blockAfter_subEnc (r : BoxIdx) (s : State) : blockAfter (.subEnc r) s = subEncBlock s.se r s.blk := rfl
@[simp] theorem blockAfter_subDec (r : BoxIdx) (s : State) :
    blockAfter (.subDec r) s = subDecBlock s.se s.sd r s.blk := rfl
@[simp] theorem blockAfter_pbEnc (p : Pos) (s : State) : blockAfter (.pbEnc p) s = pboxEnc s.pe p s.blk := rfl
@[simp] theorem blockAfter_pbDec (p : Pos) (s : State) : blockAfter (.pbDec p) s = pboxDec s.pd p s.blk := rfl
@[simp] theorem blockAfter_rndEnc (r : BoxIdx) (p : Pos) (s : State) :
    blockAfter (.rndEnc r p) s = roundEnc s r p s.blk := rfl
@[simp] theorem blockAfter_rndDec (r : BoxIdx) (p : Pos) (s : State) :
    blockAfter (.rndDec r p) s = roundDec s r p s.blk := rfl
@[simp] theorem blockAfter_blkEnc (s : State) : blockAfter .blkEnc s = passEnc s s.blk := rfl
@[simp] theorem blockAfter_blkDec (s : State) : blockAfter .blkDec s = passDec s s.blk := rfl

@[simp] theorem execSeq_nil (s : State) : execSeq [] s = .next s := rfl

/-- A sequence of commands, one command at a time. -/
@[simp] theorem execSeq_cons (i : Instr) (rest : List Instr) (s : State) :
    execSeq (i :: rest) s = execSeq rest (afterCommand i s) := by
  simp [execSeq, exec_eq]

end Sys2Proof.Machine
end

