-- ==== Sys2Proof/Tests/Slice0.lean ====
section
/-! SUPPORT. The model's own tests (expected values from spec/ or calculated by hand from its rules), and one witness for each
obligation with hypotheses. -/

namespace Sys2Proof.Tests

open Sys2Proof Sys2Proof.Machine

/-! ### Well-formed lines and legal accesses: an ill-formed term for each check -/

theorem test_line_ok : CmdLine.wellFormed ⟨.rndEnc, [7, 2047]⟩ = true := by decide
theorem test_line_too_many_operands : CmdLine.wellFormed ⟨.build, [0]⟩ = false := by decide
theorem test_line_too_few_operands : CmdLine.wellFormed ⟨.sbEnc, [3]⟩ = false := by decide
theorem test_line_box_out_of_range : CmdLine.wellFormed ⟨.subEnc, [8]⟩ = false := by decide
theorem test_line_byte_out_of_range : CmdLine.wellFormed ⟨.sbDec, [0, 256]⟩ = false := by decide
theorem test_line_seed_out_of_range : CmdLine.wellFormed ⟨.pbEnc, [2048]⟩ = false := by decide
theorem test_line_round_seed_out_of_range : CmdLine.wellFormed ⟨.rndDec, [7, 2048]⟩ = false := by decide
theorem test_ill_formed_line_is_no_command : assemble ⟨.pbDec, [2048]⟩ = none := by decide

theorem test_access_byte_wide : (HostEvent.read 0x0100 1).legal = false := by decide
theorem test_access_misaligned : (HostEvent.read 0x0102 4).legal = false := by decide
theorem test_access_unmapped : (HostEvent.read 0x000C 4).legal = false := by decide
theorem test_access_past_the_end : (HostEvent.write 0x2000 4 0).legal = false := by decide
theorem test_write_to_status : (HostEvent.write 0x0004 4 0).legal = false := by decide
theorem test_write_to_result : (HostEvent.write 0x0008 4 0).legal = false := by decide

/-! ### Decoding: one word of each row, bit by bit `op z27 k z23 arg` (R81, R83), and each way to be illegal (R86) -/

theorem test_decode_build : decode 0b0001_0_000_0000000000000_00000000000 = .ok .build := by decide
theorem test_decode_sbEnc : decode 0b0010_0_011_0000000000000_00001000001 = .ok (.sbEnc 3 0x41) := by decide
theorem test_decode_sbDec : decode 0b0011_0_111_0000000000000_00011111111 = .ok (.sbDec 7 255) := by decide
theorem test_decode_subEnc : decode 0b0100_0_101_0000000000000_00000000000 = .ok (.subEnc 5) := by decide
theorem test_decode_subDec : decode 0b0101_0_010_0000000000000_00000000000 = .ok (.subDec 2) := by decide
theorem test_decode_pbEnc : decode 0b0110_0_000_0000000000000_11111111111 = .ok (.pbEnc 2047) := by decide
theorem test_decode_pbDec : decode 0b0111_0_000_0000000000000_00000000101 = .ok (.pbDec 5) := by decide
theorem test_decode_rndEnc : decode 0b1000_0_011_0000000000000_00001100100 = .ok (.rndEnc 3 100) := by decide
theorem test_decode_rndDec : decode 0b1001_0_110_0000000000000_10000000001 = .ok (.rndDec 6 1025) := by decide
theorem test_decode_blkEnc : decode 0b1010_0_000_0000000000000_00000000000 = .ok .blkEnc := by decide
theorem test_decode_blkDec : decode 0b1011_0_000_0000000000000_00000000000 = .ok .blkDec := by decide
theorem test_decode_clrErr : decode 0b1100_0_000_0000000000000_00000000000 = .ok .clrErr := by decide

theorem test_reject_zero_word : decode 0x00000000 = .error .reservedOpcode := by decide
theorem test_reject_opcode_D : decode 0xD0000000 = .error .reservedOpcode := by decide
theorem test_reject_bit27 : decode 0x88000000 = .error .reservedBit27 := by decide
theorem test_reject_bit23 : decode 0x80800000 = .error .reservedBits23to11 := by decide
theorem test_reject_bit11 : decode 0x60000800 = .error .reservedBits23to11 := by decide
theorem test_reject_stray_index : decode 0x61000000 = .error .strayIndex := by decide
theorem test_reject_stray_arg : decode 0x45000001 = .error .strayArg := by decide
theorem test_reject_stray_arg_high : decode 0x20000100 = .error .strayArgHigh := by decide
theorem test_table_word : decodeTableWord 32 0x83000064 = some (.rndEnc 3 100) := by decide

/-! ### A small state: `SE[k][x] = x + k + 1`, `PE[p] = p + c`, and their inverses -/

/-- Rotation tables; nothing to come, no error. -/
def smallState (c : Pos) (blk : Block) (keyed : Bool) : State where
  key := tabulate fun _ => 0
  se := tabulate fun k => tabulate fun i => BitVec.ofFin i + BitVec.ofNat 8 (k + 1)
  sd := tabulate fun k => tabulate fun i => BitVec.ofFin i - BitVec.ofNat 8 (k + 1)
  pe := tabulate fun p => BitVec.ofFin p + c
  pd := tabulate fun p => BitVec.ofFin p - c
  seed := zero256
  blk := blk
  keyed := keyed
  err := 0
  result := 0
  pending := []
  response := .idle
  resets := 0

/-- The small state with the tables of the all-zero key (spec/40_builder.md R104), keyed. -/
def identityState (blk : Block) : State :=
  ((smallState 0 blk true).setBoxes (tabulate fun _ => tabulate fun i => BitVec.ofFin i)
    (tabulate fun _ => tabulate fun i => BitVec.ofFin i))

/-- One set bit. -/
def oneBit (p : Pos) : Block := setBit zero256 p

/-- A reading of the next state. -/
def reading {α : Type} (o : Host.Outcome State Fault Refusal) (f : State → α) : Option α :=
  match o with
  | .next t => some (f t)
  | .fault _ => none
  | .refused _ => none

theorem small_tables (c : Pos) (b : Block) (keyed : Bool) : (smallState c b keyed).TablesInverse := by
  constructor
  · intro k x
    simp only [smallState, sboxEnc, sboxDec, boxAt_tabulate, byteAt_tabulate]
    exact BitVec.add_sub_cancel x _
  · intro k y
    simp only [smallState, sboxEnc, sboxDec, boxAt_tabulate, byteAt_tabulate]
    exact BitVec.sub_add_cancel y _
  · intro p
    simp only [smallState, posAt_tabulate]
    exact BitVec.add_sub_cancel p _
  · intro q
    simp only [smallState, posAt_tabulate]
    exact BitVec.sub_add_cancel q _

theorem identity_tables (b : Block) : (identityState b).IdentityTables := by
  constructor
  · intro k x; simp [identityState, sboxEnc]
  · intro k y; simp [identityState, sboxDec]
  · intro p; simp [identityState, smallState]
  · intro q; simp [identityState, smallState]

theorem small_inv (c : Pos) (b : Block) (keyed : Bool) : (smallState c b keyed).Inv :=
  ⟨fun _ => small_tables c b keyed, .inl rfl⟩

theorem identity_inverse (b : Block) : (identityState b).TablesInverse := by
  have h := identity_tables b
  exact ⟨by simp [h.se, h.sd], by simp [h.se, h.sd], by simp [h.pe, h.pd], by simp [h.pe, h.pd]⟩

/-! ### The commands, one at a time -/

/-- Hand calculation: `SE[7][0xFE] = 0xFE + 8`, which wraps to 6. -/
theorem test_sbEnc : reading (exec (.sbEnc 7 0xFE) (smallState 3 zero256 true)) (·.result) = some 0x06 := by
  decide +kernel
theorem test_sbDec : reading (exec (.sbDec 7 0x06) (smallState 3 zero256 true)) (·.result) = some 0xFE := by
  decide +kernel

/-- Lane 5 of a zero block: key `SE[2][5] = 8`, then the cascade adds `1 + ... + 8 = 36`. -/
theorem test_subEnc_lane5 :
    reading (exec (.subEnc 2) (smallState 3 zero256 true)) (fun t => byteAt t.blk 5) = some 44 := by decide +kernel
/-- Lane 255: key `SE[2][255] = 255 + 3`, which wraps to 2. -/
theorem test_subEnc_lane255 :
    reading (exec (.subEnc 2) (smallState 3 zero256 true)) (fun t => byteAt t.blk 255) = some 38 := by decide +kernel
/-- Lane 5 of a zero block: `CascDec(0) = 220`, and `220 xor 8 = 212`; the key byte is from the forward table. -/
theorem test_subDec_lane5 :
    reading (exec (.subDec 2) (smallState 3 zero256 true)) (fun t => byteAt t.blk 5) = some 212 := by decide +kernel

/-- Position 2047 with seed 1 wraps to 0, and `PE[0] = 3`. -/
theorem test_pbEnc_wraps : bitAt (pboxEnc (smallState 3 zero256 true).pe 1 (oneBit 2047)) 3 = true :=
  (bitAt_scatter _ _ _).2 ⟨2047, by decide +kernel, by decide +kernel⟩
/-- The spec's vectors of spec/95_test_vectors.md section 6 with identity tables: {2047} goes to {0} under `PB.ENC 1`. -/
theorem test_pbEnc_vector : bitAt (pboxEnc (identityState zero256).pe 1 (oneBit 2047)) 0 = true :=
  (bitAt_scatter _ _ _).2 ⟨2047, by decide +kernel, by decide +kernel⟩
/-- `PD[2] = 2 - 3 = 2047`, less the seed 1 is 2046. -/
theorem test_pbDec_borrows : bitAt (pboxDec (smallState 3 zero256 true).pd 1 (oneBit 2)) 2046 = true :=
  (bitAt_scatter _ _ _).2 ⟨2, by decide +kernel, by decide +kernel⟩
/-- Section 6: {0} goes to {2047} under `PB.DEC 1` with identity tables. -/
theorem test_pbDec_vector : bitAt (pboxDec (identityState zero256).pd 1 (oneBit 0)) 2047 = true :=
  (bitAt_scatter _ _ _).2 ⟨0, by decide +kernel, by decide +kernel⟩

theorem scatter_zero (move : Pos → Pos) : scatter move zero256 = zero256 :=
  block_ext_bits fun p => by rw [Bool.eq_iff_iff, bitAt_scatter]; simp

/-- Lane 5 becomes 44, so position 42 is set before the PBox, which moves it to `PE[42 + 1] = 46`: the stage first. -/
theorem test_rndEnc_order : bitAt (roundEnc (smallState 3 zero256 true) 2 1 zero256) 46 = true := by
  rw [roundEnc, pboxEnc, bitAt_scatter]
  exact ⟨42, by decide +kernel, by decide +kernel⟩
/-- A zero block stays zero under the PBox; then lane 5 is 212 as above: the PBox first. -/
theorem test_rndDec_order : byteAt (roundDec (smallState 3 zero256 true) 2 1 zero256) 5 = 212 := by
  rw [roundDec, pboxDec, scatter_zero]
  decide +kernel

theorem pbox_identity (b : Block) :
    pboxEnc (smallState 0 zero256 true).pe 0 b = b ∧ pboxDec (smallState 0 zero256 true).pd 0 b = b := by
  constructor <;> refine block_ext_bits fun p => ?_
  · rw [pboxEnc, bitAt_scatter_bij _ id (by simp [smallState, seedShift]) (by simp [smallState, seedShift])]; rfl
  · rw [pboxDec, bitAt_scatter_bij _ id (by simp [smallState, seedUnshift]) (by simp [smallState, seedUnshift])]; rfl

/-- With `PE` the identity, lane 0 of a zero block goes through `v <- (v xor (r + 1)) + 36` for `r = 0, ..., 7`, by hand 37, 75,
108, 140, 173, 207, 236, 8: the rounds go up. -/
theorem test_blkEnc_lane0 : byteAt (passEnc (smallState 0 zero256 true) zero256) 0 = 8 := by
  simp only [passEnc, roundEnc, (pbox_identity _).1]
  decide +kernel
/-- The same chain backwards from a block whose lane 0 is 8 gives 0: the rounds go down. -/
theorem test_blkDec_lane0 : byteAt (passDec (smallState 0 zero256 true) (oneBit 3)) 0 = 0 := by
  simp only [passDec, roundDec, (pbox_identity _).2]
  decide +kernel

/-- spec/95_test_vectors.md section 10: `BLK.ENC` on an unkeyed engine leaves `STATUS` at `0x20`. -/
theorem test_unkeyed_pass_is_rejected :
    reading (exec .blkEnc (smallState 3 zero256 false)) readStatus = some 0x00000020 := by decide +kernel
/-- The first error is kept (R221). -/
theorem test_first_error_is_kept :
    reading (exec .blkDec ((smallState 3 zero256 false).setErr 1)) readStatus = some 0x00000010 := by decide +kernel
theorem test_clrErr : reading (exec .clrErr ((smallState 3 zero256 true).setErr 2)) readStatus = some 0x00000001 := by
  decide +kernel

/-- The traces of spec/40_builder.md section 4: segment 1, 1, 1, 1 for `N = 4`. -/
theorem test_build_trace : buildPerm (n := 4) (fun _ => 1) = (#v[3, 0, 2, 1], #v[1, 3, 2, 0]) := by decide
/-- `BUILD` from an unkeyed state: `STATUS` reads 1. -/
theorem test_build_status : reading (exec .build (smallState 3 zero256 false)) readStatus = some 0x00000001 := by
  decide +kernel

/-! ### Steps -/

theorem test_fetched_build_runs :
    reading (step (State.reset.withFetchWord 32 0x10000000)) readStatus = some 0x00000001 := by decide +kernel
theorem test_fetched_lookup_is_rejected :
    reading (step (State.reset.withFetchWord 32 0x23000041)) readStatus = some 0x00000020 := by decide +kernel
theorem test_fetched_illegal_word :
    reading (step (State.reset.withFetchWord 32 0)) readStatus = some 0x00000010 := by decide +kernel
/-- A window write and the little-endian byte order of R53. -/
theorem test_window_write :
    reading (step ((smallState 3 zero256 true).setPending [.write 0x0104 4 0x04030201]))
      (fun t => (byteAt t.blk 4, byteAt t.blk 7)) = some (0x01, 0x04) := by decide +kernel
theorem test_illegal_read_stops :
    step ((smallState 3 zero256 true).setPending [.read 0x000C 4]) = .fault (.busFault 0x000C) := by rfl

/-! ### Witnesses: the hypotheses of each obligation can be met together -/

/-- A host that makes one access. -/
def asking (e : HostEvent) : State := (smallState 3 zero256 true).setPending [e]

/-- The same, on an engine without tables. -/
def askingUnkeyed (e : HostEvent) : State := (smallState 3 zero256 false).setPending [e]

theorem asking_inv (e : HostEvent) : (asking e).Inv :=
  ⟨fun _ => ⟨(small_tables 3 zero256 true).1, (small_tables 3 zero256 true).2, (small_tables 3 zero256 true).3,
    (small_tables 3 zero256 true).4⟩, .inl rfl⟩

theorem witness_EncodeInvertsDecode : decode 0x97000400 = .ok (.rndDec 7 1024) := by decide
theorem witness_IllegalWordsAreRejectedWithIllCmd : decode 0xF8000000 = .error .reservedBit27 ∧
    (asking (.write 0x0000 4 0xF8000000)).pending = .write 0x0000 4 0xF8000000 :: [] := by decide
theorem witness_AssemblingALineGivesItsCommand : assemble ⟨.rndEnc, [7, 2047]⟩ = some (.rndEnc 7 2047) := by decide
theorem witness_StepRunsTheDecodedCommand : decode 0x970007FF = .ok (.rndDec 7 2047) ∧
    (asking (.write 0x0000 4 0x970007FF)).pending = .write 0x0000 4 0x970007FF :: [] := by decide
theorem witness_RejectedCommand_illegal : (∃ e, decode 0 = .error e) ∧
    (asking (.write 0x0000 4 0)).pending = .write 0x0000 4 0 :: [] ∧ (asking (.write 0x0000 4 0)).err = 0 :=
  ⟨⟨.reservedOpcode, by decide⟩, rfl, rfl⟩
theorem witness_RejectedCommand_unkeyed : (∃ i, decode 0x23000041 = .ok i ∧ needsTables i = true) ∧
    (askingUnkeyed (.write 0x0000 4 0x23000041)).pending = .write 0x0000 4 0x23000041 :: [] ∧
    (askingUnkeyed (.write 0x0000 4 0x23000041)).keyed = false :=
  ⟨⟨.sbEnc 3 0x41, by decide, rfl⟩, rfl, rfl⟩
theorem witness_RejectedCommand_errKept : ((askingUnkeyed (.write 0x0000 4 0)).setErr 2).err ≠ 0 ∧
    ((askingUnkeyed (.write 0x0000 4 0)).setErr 2).pending = .write 0x0000 4 0 :: [] := by decide
theorem witness_ResetInput : isReset .reset = true ∧ (asking .reset).pending = .reset :: [] ∧
    isReset (.resetDuring 0x10000000) = true ∧ (asking (.resetDuring 0x10000000)).pending = .resetDuring 0x10000000 :: [] ∧
    needsTables .blkEnc = true := by decide
/-- Both edges of every region of R51, for reads. -/
theorem witness_legal_reads : ∀ off ∈ [0x0000, 0x0004, 0x0008, 0x0100, 0x01FC, 0x0200, 0x02FC, 0x1000, 0x1FFC],
    (HostEvent.read off 4).legal = true := by decide
/-- Just outside them, wrong sizes and wrong alignment. -/
theorem witness_illegal_reads :
    (∀ off ∈ [0x000C, 0x00FC, 0x0300, 0x0FFC, 0x2000, 0x0101, 0x1FFF], (HostEvent.read off 4).legal = false) ∧
    (HostEvent.read 0x0100 2).legal = false ∧ (HostEvent.read 0x0000 8).legal = false := by decide
theorem witness_legal_writes : ∀ off ∈ [0x0000, 0x0100, 0x01FC, 0x0200, 0x02FC, 0x1000, 0x1FFC],
    (HostEvent.write off 4 0).legal = true := by decide
theorem witness_illegal_writes : (∀ off ∈ [0x0004, 0x0008, 0x000C, 0x00FC, 0x0300, 0x0FFC, 0x2000, 0x0101],
    (HostEvent.write off 4 0).legal = false) ∧ (HostEvent.write 0x0100 1 0).legal = false := by decide
theorem witness_access_pending (off n : Nat) (v : Word) : (asking (.read off n)).pending = .read off n :: [] ∧
    (asking (.write off n v)).pending = .write off n v :: [] := ⟨rfl, rfl⟩
theorem witness_idle : (smallState 3 zero256 true).pending = [] := rfl
theorem witness_StatusReads : (asking (.read 0x0004 4)).pending = .read 0x0004 4 :: [] ∧
    (asking (.write 0x0004 4 0xFFFFFFFF)).pending = .write 0x0004 4 0xFFFFFFFF :: [] ∧ (asking (.read 0x0004 4)).Inv :=
  ⟨rfl, rfl, asking_inv _⟩
theorem witness_CmdAndResult : (asking (.read 0x0000 4)).pending = .read 0x0000 4 :: [] ∧
    (asking (.read 0x0008 4)).pending = .read 0x0008 4 :: [] ∧
    (asking (.write 0x0008 4 1)).pending = .write 0x0008 4 1 :: [] := by decide
theorem witness_WindowsPackBytes : (0 : Nat) < 256 ∧ 255 < 256 ∧ 4095 < 4096 := by decide
theorem witness_WindowWrite : ∀ off ∈ [0x0100, 0x01FC, 0x0200, 0x02FC, 0x1000, 0x1FFC], off % 4 = 0 ∧
    ((0x0100 ≤ off ∧ off ≤ 0x01FF) ∨ (0x0200 ≤ off ∧ off ≤ 0x02FF) ∨ (0x1000 ≤ off ∧ off ≤ 0x1FFF)) ∧
    (asking (.write off 4 0xAABBCCDD)).pending = .write off 4 0xAABBCCDD :: [] := by decide
theorem witness_BuildPerm_residues : (∀ i : Fin 1, (0 : Nat) % (1 - i) = 5 % (1 - i)) ∧
    (∀ i : Fin 2, (fun _ => 3 : Fin 2 → Nat) i % (2 - i) = (fun j => [1, 9].getD j.val 0 : Fin 2 → Nat) i % (2 - i)) ∧
    ∀ i : Fin 2, i.val + 1 < 2 → (fun _ => 7 : Fin 2 → Nat) i = (fun j => [7, 0].getD j.val 0 : Fin 2 → Nat) i := by decide
theorem witness_Scan_fuel : (4 : Nat) ≤ 4 ∧ 4 ≤ 9 := by decide
theorem witness_BuildMakesTheTables_zeroKey : ∀ j, byteOfKey (smallState 3 zero256 false) j = 0 := by
  intro j
  unfold byteOfKey
  split <;> simp [smallState]
theorem witness_TablesChangeOnlyByBuild : (∃ t, step (asking (.write 0x1000 4 7)) = .next t) ∧
    isReset (.write 0x1000 4 7) = false ∧ HostEvent.write 0x1000 4 7 ≠ .write 0x0000 4 0x10000000 :=
  ⟨⟨_, rfl⟩, rfl, by decide⟩
theorem witness_keyed_and_unkeyed : (smallState 3 zero256 true).keyed = true ∧ (smallState 3 zero256 true).TablesInverse ∧
    (smallState 3 zero256 true).Inv ∧ (smallState 3 zero256 false).keyed = false ∧ (smallState 3 zero256 false).err = 0 :=
  ⟨rfl, small_tables _ _ _, small_inv _ _ _, rfl, rfl⟩
/-- The premises of the clauses "depends on the tables and the block only", by two states that differ elsewhere. -/
theorem witness_passes_see_only_tables_and_block : ((smallState 3 zero256 true).setErr 2).keyed = true ∧
    ((smallState 3 zero256 true).setErr 2).se = (smallState 3 zero256 true).se ∧
    ((smallState 3 zero256 true).setErr 2).sd = (smallState 3 zero256 true).sd ∧
    ((smallState 3 zero256 true).setErr 2).pe = (smallState 3 zero256 true).pe ∧
    ((smallState 3 zero256 true).setErr 2).pd = (smallState 3 zero256 true).pd ∧
    ((smallState 3 zero256 true).setErr 2).blk = (smallState 3 zero256 true).blk := ⟨rfl, rfl, rfl, rfl, rfl, rfl⟩
theorem witness_strayArgHigh : ∀ h ∈ [1, 4, 7], (BitVec.ofNat 3 h) ≠ 0 := by decide
theorem witness_identity : (identityState zero256).keyed = true ∧ (identityState zero256).IdentityTables ∧
    (identityState zero256).TablesInverse := ⟨rfl, identity_tables _, identity_inverse _⟩
theorem witness_OneSetBit : (smallState 3 (oneBit 2047) true).keyed = true ∧
    ∀ q, bitAt (smallState 3 (oneBit 2047) true).blk q = decide (q = 2047) :=
  ⟨rfl, fun q => by simp [smallState, oneBit, bitAt_setBit]⟩
/-- The premises of the clauses for all-zero and all-ones blocks. -/
theorem witness_PbEnc_constant_blocks : (∀ p, bitAt (smallState 3 zero256 true).blk p = false) ∧
    ∀ p, bitAt (smallState 3 (tabulate fun _ => 255) true).blk p = true := by
  refine ⟨fun p => bitAt_zero256 p, fun p => ?_⟩
  have h := bitIndex_lt p
  simp only [smallState, bitAt, Fin.getElem_fin, getElem_tabulate]
  interval_cases bitIndex p <;> rfl
theorem witness_Linear : (pboxEnc (smallState 3 zero256 true).pe = pboxEnc (smallState 3 zero256 true).pe) ∧
    (smallState 3 zero256 true).TablesInverse := ⟨rfl, small_tables _ _ _⟩
theorem witness_SeedIsInert : Instr.blkEnc ≠ .build ∧
    ∃ t, exec .blkEnc (smallState 3 zero256 true) = .next t := ⟨by decide, _, exec_eq _ _⟩
theorem witness_FlagsChange_keyed : (∃ t, step (askingUnkeyed (.write 0x0000 4 0x10000000)) = .next t ∧
    t.keyed ≠ (askingUnkeyed (.write 0x0000 4 0x10000000)).keyed) ∧
    ∃ t, step (asking .reset) = .next t ∧ t.keyed ≠ (asking .reset).keyed := by
  refine ⟨⟨_, by rw [step_cons rfl]; rfl, ?_⟩, ⟨_, by rw [step_cons rfl]; rfl, ?_⟩⟩
  · rw [construct_keyed]; decide
  · rw [applyReset_keyed]; decide
theorem witness_FlagsChange_err : ∃ t, step (asking (.write 0x0000 4 0)) = .next t ∧
    t.err ≠ (asking (.write 0x0000 4 0)).err := ⟨_, rfl, by decide +kernel⟩
theorem witness_ResultChanges : ∃ t, step (asking (.write 0x0000 4 0x27000001)) = .next t ∧
    t.result ≠ (asking (.write 0x0000 4 0x27000001)).result := ⟨_, rfl, by decide +kernel⟩
theorem witness_EveryStepKeepsTheInvariant : (askingUnkeyed .reset).keyed = false ∧ (asking (.read 0x1FFC 4)).Inv ∧
    ∃ t, step (asking (.read 0x1FFC 4)) = .next t := ⟨rfl, asking_inv _, _, rfl⟩
theorem witness_ExpandKey_refused : ([] : Codes) = [] ∧ ∃ x ∈ ([65, 256] : Codes), 255 < x := by decide
theorem witness_ExpandKey_short : ([65, 255] : Codes) ≠ [] ∧ (∀ x ∈ ([65, 255] : Codes), x ≤ 255) ∧
    ([65, 255] : Codes).length < 4096 := by decide
theorem witness_ExpandKey_long : (List.replicate 4097 65 : Codes) ≠ [] ∧ (∀ x ∈ (List.replicate 4097 65 : Codes), x ≤ 255) ∧
    4096 ≤ (List.replicate 4097 65 : Codes).length :=
  ⟨List.ne_nil_of_length_pos (by rw [List.length_replicate]; omega),
    fun x hx => by rw [List.eq_of_mem_replicate hx]; omega, by rw [List.length_replicate]; omega⟩
theorem witness_procedures : (∃ key, expandKey [65] = .ok key) ∧ plainOk [0, 255] = true ∧
    (smallState 3 zero256 true).keyed = true ∧ (smallState 3 zero256 true).Inv := ⟨⟨_, by rw [expandKey, if_neg (by decide), if_neg (by decide)]⟩, rfl, rfl, small_inv _ _ _⟩
/-- Two keyed states with the same tables that differ in `BLK`, `SEED` and the last response; the second call starts in the other. -/
theorem witness_two_encodings : plainOk [72, 0, 255] = true ∧ (smallState 3 zero256 true).keyed = true ∧
    ((((smallState 3 zero256 true).setBlk (oneBit 7)).setSeed (oneBit 9)).setResponse .ok).keyed = true ∧
    ((((smallState 3 zero256 true).setBlk (oneBit 7)).setSeed (oneBit 9)).setResponse .ok).se =
      (smallState 3 zero256 true).se ∧
    ((((smallState 3 zero256 true).setBlk (oneBit 7)).setSeed (oneBit 9)).setResponse .ok).pe =
      (smallState 3 zero256 true).pe ∧
    (smallState 3 zero256 true).Inv := ⟨rfl, rfl, rfl, rfl, rfl, small_inv _ _ _⟩
/-- The scenario of R206 (d): 9 password codes and 24 text codes, all bytes, so both procedures accept them. -/
theorem test_scenario_is_accepted : scenarioPassword.length = 9 ∧ allBytes scenarioPassword = true ∧
    scenarioText.length = 24 ∧ plainOk scenarioText = true := by decide
theorem witness_SystemProperties : ([0, 255] : Codes) ≠ [] ∧ (∀ x ∈ ([0, 255] : Codes), x ≤ 255) ∧
    (smallState 3 zero256 true).keyed = true ∧ (smallState 3 zero256 true).Inv :=
  ⟨by decide, by decide, rfl, small_inv _ _ _⟩
theorem witness_seed_field : seedOk (List.replicate 256 255) = true := by decide +kernel
/-- A text that fills its block needs no filler. -/
theorem witness_full_block : plainOk (List.replicate 256 7) = true ∧ (List.replicate 256 7).length % 256 = 0 := by decide +kernel

end Sys2Proof.Tests
end

section
/-! PROOFS. What a bus read of the three windows gives (spec/20_memory.md R53, R55). -/

namespace Sys2Proof.Machine

/-- A read of the `BLK` window at word `j` (R55). -/
theorem memRead_blkWindow (s : State) (j : Nat) (hj : 4 * j + 3 < 256) :
    memRead s (0x0100 + 4 * j) 4 = some (wordOf s.blk j hj) := by
  have hlegal : ¬ (4 ≠ 4 ∨ (0x0100 + 4 * j) % 4 ≠ 0) := by omega
  have hblk : 0x0100 ≤ 0x0100 + 4 * j ∧ 0x0100 + 4 * j ≤ 0x01FC := by omega
  have hword : (0x0100 + 4 * j - 0x0100) / 4 = j := by omega
  rw [memRead, if_neg hlegal, if_neg (by omega), if_neg (by omega), if_neg (by omega), dif_pos hblk]
  simp only [hword]

/-- A read of the `SEED` window at word `j` (R55). -/
theorem memRead_seedWindow (s : State) (j : Nat) (hj : 4 * j + 3 < 256) :
    memRead s (0x0200 + 4 * j) 4 = some (wordOf s.seed j hj) := by
  have hlegal : ¬ (4 ≠ 4 ∨ (0x0200 + 4 * j) % 4 ≠ 0) := by omega
  have hseed : 0x0200 ≤ 0x0200 + 4 * j ∧ 0x0200 + 4 * j ≤ 0x02FC := by omega
  have hword : (0x0200 + 4 * j - 0x0200) / 4 = j := by omega
  rw [memRead, if_neg hlegal, if_neg (by omega), if_neg (by omega), if_neg (by omega), dif_neg (by omega),
    dif_pos hseed]
  simp only [hword]

/-- A read of the `KEY` window at word `j` (R55). -/
theorem memRead_keyWindow (s : State) (j : Nat) (hj : 4 * j + 3 < 4096) :
    memRead s (0x1000 + 4 * j) 4 = some (wordOf s.key j hj) := by
  have hlegal : ¬ (4 ≠ 4 ∨ (0x1000 + 4 * j) % 4 ≠ 0) := by omega
  have hkey : 0x1000 ≤ 0x1000 + 4 * j ∧ 0x1000 + 4 * j ≤ 0x1FFC := by omega
  have hword : (0x1000 + 4 * j - 0x1000) / 4 = j := by omega
  rw [memRead, if_neg hlegal, if_neg (by omega), if_neg (by omega), if_neg (by omega), dif_neg (by omega),
    dif_neg (by omega), dif_pos hkey]
  simp only [hword]

/-- Element `i` is byte `i mod 4` of word `i div 4` (R53): `wordOf_byte` by the element's index. -/
theorem wordOf_byte_of_index {n : Nat} (a : Vector Byte n) (i : Nat) (hi : i < n) (h : 4 * (i / 4) + 3 < n) :
    (wordOf a (i / 4) h).extractLsb' (8 * (i % 4)) 8 = a[i] := by
  rw [wordOf_byte a (i / 4) h (i % 4) (Nat.mod_lt i (by decide))]
  simp only [Nat.div_add_mod]

/-- Settles O16: each window read is the word of its array, and a word's bytes are the array's elements. -/
theorem windowsPackBytesLittleEndian : Obligations.WindowsPackBytesLittleEndian := by
  unfold Obligations.WindowsPackBytesLittleEndian
  refine ⟨fun s i h => ?_, fun s i h => ?_, fun s i h => ?_⟩
  · exact ⟨_, memRead_blkWindow s (i / 4) (by omega), wordOf_byte_of_index s.blk i h _⟩
  · exact ⟨_, memRead_seedWindow s (i / 4) (by omega), wordOf_byte_of_index s.seed i h _⟩
  · exact ⟨_, memRead_keyWindow s (i / 4) (by omega), wordOf_byte_of_index s.key i h _⟩

end Sys2Proof.Machine
end

section
/-! PROOFS. Which words are illegal (spec/30_encoding.md R81 to R83, R86, R87): the decoder and the opcode table are both
tied to one predicate on a word's fields, `Mnemonic.Matches`. -/

namespace Sys2Proof

/-- R82: the operand fields that a format does not use are 0. -/
def Format.UnusedZero : Format → BoxIdx → Pos → Prop
  | .Z, k, arg => k = 0 ∧ arg = 0
  | .K, _, arg => arg = 0
  | .KB, _, arg => argHigh arg = 0
  | .S, k, _ => k = 0
  | .KS, _, _ => True

/-- A word is a command of mnemonic `m`, said of its fields (R81 to R84). -/
def Mnemonic.Matches (m : Mnemonic) (w : Word) : Prop :=
  opField w = m.opcode ∧ z27Field w = 0 ∧ z23Field w = 0 ∧ m.format.UnusedZero (kField w) (argField w)

/-- The four opcodes that no command has (R86). -/
def ReservedOpcode (op : BitVec 4) : Prop := op = 0x0 ∨ op = 0xD ∨ op = 0xE ∨ op = 0xF

/-! ### Opcodes -/

theorem Mnemonic.opcode_injective {m m' : Mnemonic} (h : m.opcode = m'.opcode) : m = m' := by
  revert h
  cases m <;> cases m' <;> decide

theorem Mnemonic.opcode_not_reserved (m : Mnemonic) : ¬ ReservedOpcode m.opcode := by
  unfold ReservedOpcode
  cases m <;> decide

/-- Every opcode is reserved or a command's. -/
theorem reservedOpcode_or_opcode (op : BitVec 4) : ReservedOpcode op ∨ ∃ m : Mnemonic, op = m.opcode := by
  have inTable : ∀ op : BitVec 4, (op = 0x0 ∨ op = 0xD ∨ op = 0xE ∨ op = 0xF) ∨
      ∃ r ∈ opcodeTable, op = r.mnemonic.opcode := by decide
  exact (inTable op).imp_right fun ⟨r, _, h⟩ => ⟨r.mnemonic, h⟩

/-! ### The decoder -/

theorem error_iff_not_ok {ε α : Type} (x : Except ε α) : (∃ e, x = .error e) ↔ ¬ ∃ a, x = .ok a := by
  cases x <;> simp

theorem decodeZ_isOk (i : Instr) (k : BoxIdx) (arg : Pos) : (∃ j, decodeZ i k arg = .ok j) ↔ k = 0 ∧ arg = 0 := by
  unfold decodeZ
  split_ifs <;> simp_all

theorem decodeK_isOk (i : BoxIdx → Instr) (k : BoxIdx) (arg : Pos) : (∃ j, decodeK i k arg = .ok j) ↔ arg = 0 := by
  unfold decodeK
  split_ifs <;> simp_all

theorem decodeKB_isOk (i : BoxIdx → Byte → Instr) (k : BoxIdx) (arg : Pos) :
    (∃ j, decodeKB i k arg = .ok j) ↔ argHigh arg = 0 := by
  unfold decodeKB
  split_ifs <;> simp_all

theorem decodeS_isOk (i : Pos → Instr) (k : BoxIdx) (arg : Pos) : (∃ j, decodeS i k arg = .ok j) ↔ k = 0 := by
  unfold decodeS
  split_ifs <;> simp_all

/-- Under a command's opcode the decoder looks at the unused operand fields and at nothing else (R82, R87). -/
theorem decodeOp_opcode_isOk (m : Mnemonic) (k : BoxIdx) (arg : Pos) :
    (∃ i, decodeOp m.opcode k arg = .ok i) ↔ m.format.UnusedZero k arg := by
  cases m with
  | build | blkEnc | blkDec | clrErr => exact decodeZ_isOk _ k arg
  | subEnc | subDec => exact decodeK_isOk _ k arg
  | sbEnc | sbDec => exact decodeKB_isOk _ k arg
  | pbEnc | pbDec => exact decodeS_isOk _ k arg
  | rndEnc | rndDec => exact ⟨fun _ => trivial, fun _ => ⟨_, rfl⟩⟩

theorem decodeOp_reserved {op : BitVec 4} (h : ReservedOpcode op) (k : BoxIdx) (arg : Pos) :
    decodeOp op k arg = .error .reservedOpcode := by
  obtain rfl | rfl | rfl | rfl := h <;> rfl

theorem decodeOp_isOk_iff (op : BitVec 4) (k : BoxIdx) (arg : Pos) :
    (∃ i, decodeOp op k arg = .ok i) ↔ ∃ m : Mnemonic, op = m.opcode ∧ m.format.UnusedZero k arg := by
  obtain hreserved | ⟨m, rfl⟩ := reservedOpcode_or_opcode op
  · rw [decodeOp_reserved hreserved]
    refine iff_of_false (by simp) ?_
    rintro ⟨m, rfl, -⟩
    exact m.opcode_not_reserved hreserved
  · rw [decodeOp_opcode_isOk]
    refine ⟨fun h => ⟨m, rfl, h⟩, ?_⟩
    rintro ⟨m', hop, h⟩
    rwa [Mnemonic.opcode_injective hop]

/-- R87: the decoder accepts exactly the words that match some mnemonic. -/
theorem decode_isOk_iff (w : Word) : (∃ i, decode w = .ok i) ↔ ∃ m : Mnemonic, m.Matches w := by
  unfold decode Mnemonic.Matches
  split_ifs with h27 h23
  · exact iff_of_false (by simp) fun ⟨_, _, hz27, _⟩ => h27 hz27
  · exact iff_of_false (by simp) fun ⟨_, _, _, hz23, _⟩ => h23 hz23
  · rw [decodeOp_isOk_iff]
    simp [not_not.1 h27, not_not.1 h23]

theorem decode_isError_iff (w : Word) : (∃ e, decode w = .error e) ↔ ∀ m : Mnemonic, ¬ m.Matches w := by
  rw [error_iff_not_ok, decode_isOk_iff, not_exists]

/-! ### The opcode table -/

/-- A word is a command word with the given operands exactly when its five fields say so (R81). -/
theorem eq_commandWord_iff (w : Word) (op : BitVec 4) (k : BoxIdx) (arg : Pos) :
    w = commandWord op k arg ↔
      opField w = op ∧ z27Field w = 0 ∧ kField w = k ∧ z23Field w = 0 ∧ argField w = arg := by
  constructor
  · rintro rfl
    simp
  · rintro ⟨rfl, h27, rfl, h23, rfl⟩
    exact (commandWord_fields w h27 h23).symm

theorem opField_and (v w : Word) : opField (v &&& w) = opField v &&& opField w := BitVec.extractLsb'_and
theorem z27Field_and (v w : Word) : z27Field (v &&& w) = z27Field v &&& z27Field w := BitVec.extractLsb'_and
theorem kField_and (v w : Word) : kField (v &&& w) = kField v &&& kField w := BitVec.extractLsb'_and
theorem z23Field_and (v w : Word) : z23Field (v &&& w) = z23Field v &&& z23Field w := BitVec.extractLsb'_and
theorem argField_and (v w : Word) : argField (v &&& w) = argField v &&& argField w := BitVec.extractLsb'_and

/-- The bits of `k` that a format's rows look at. -/
def Format.kMask : Format → BoxIdx
  | .Z | .S => BitVec.allOnes 3
  | .K | .KB | .KS => 0

/-- The bits of `arg` that a format's rows look at. -/
def Format.argMask : Format → Pos
  | .Z | .K => BitVec.allOnes 11
  | .KB => BitVec.allOnes 3 ++ 0#8
  | .S | .KS => 0

/-- R83's columns: `match` is the opcode alone; `mask` covers the opcode, the reserved fields and what the row's format
fixes of the operand fields. -/
theorem opcodeTable_columns : ∀ r ∈ opcodeTable, r.bits = commandWord r.mnemonic.opcode 0 0 ∧
    opField r.mask = BitVec.allOnes 4 ∧ z27Field r.mask = BitVec.allOnes 1 ∧ z23Field r.mask = BitVec.allOnes 13 ∧
    kField r.mask = r.mnemonic.format.kMask ∧ argField r.mask = r.mnemonic.format.argMask := by
  decide

/-- Every mnemonic has a row. -/
theorem exists_row (m : Mnemonic) : ∃ r ∈ opcodeTable, r.mnemonic = m := by
  cases m <;> decide

theorem and_highMask_eq_zero_iff (arg : Pos) : arg &&& (BitVec.allOnes 3 ++ 0#8) = 0 ↔ argHigh arg = 0 := by
  have high : argHigh (arg &&& (BitVec.allOnes 3 ++ 0#8)) = argHigh arg := by
    unfold argHigh
    rw [BitVec.extractLsb'_and]
    exact BitVec.and_allOnes
  constructor
  · intro h
    rw [← high, h]
    rfl
  · intro h
    rw [← byteArg_argByte arg h, byteArg, BitVec.and_append]
    simp

/-- The masked operand fields are 0 exactly when the unused ones are (R82). -/
theorem masked_eq_zero_iff (f : Format) (k : BoxIdx) (arg : Pos) :
    k &&& f.kMask = 0 ∧ arg &&& f.argMask = 0 ↔ f.UnusedZero k arg := by
  cases f with
  | KB =>
    rw [Format.argMask, and_highMask_eq_zero_iff]
    simp [Format.kMask, Format.UnusedZero]
  | Z | K | S | KS => simp [Format.kMask, Format.argMask, Format.UnusedZero, -BitVec.reduceAllOnes]

/-- R82, R83: `w and mask = match` says that the word matches the row's mnemonic. -/
theorem accepts_iff_matches {r : Row} (hr : r ∈ opcodeTable) (w : Word) :
    r.accepts w = true ↔ r.mnemonic.Matches w := by
  obtain ⟨hbits, hop, h27, h23, hk, harg⟩ := opcodeTable_columns r hr
  rw [Row.accepts, decide_eq_true_iff, hbits, eq_commandWord_iff]
  simp only [opField_and, z27Field_and, kField_and, z23Field_and, argField_and, hop, h27, hk, h23, harg,
    BitVec.and_allOnes]
  rw [Mnemonic.Matches, ← masked_eq_zero_iff]
  tauto

theorem forall_not_accepts_iff (w : Word) :
    (∀ r ∈ opcodeTable, r.accepts w = false) ↔ ∀ m : Mnemonic, ¬ m.Matches w := by
  constructor
  · intro h m hm
    obtain ⟨r, hr, rfl⟩ := exists_row m
    exact Bool.false_ne_true ((h r hr).symm.trans ((accepts_iff_matches hr w).2 hm))
  · intro h r hr
    rw [← Bool.not_eq_true, accepts_iff_matches hr]
    exact h r.mnemonic

/-! ### R86's list -/

theorem argHigh_argField (w : Word) : argHigh (argField w) = w.extractLsb' 8 3 :=
  BitVec.extractLsb'_extractLsb'_of_le (by decide)

/-- R86, by opcode: under a reserved one both sides hold, under a command's only its own row is in question. -/
theorem forall_not_matches_iff (w : Word) : (∀ m : Mnemonic, ¬ m.Matches w) ↔
    (opField w = 0x0 ∨ opField w = 0xD ∨ opField w = 0xE ∨ opField w = 0xF) ∨
    z27Field w ≠ 0 ∨ z23Field w ≠ 0 ∨
    (kField w ≠ 0 ∧ (opField w = 0x1 ∨ opField w = 0x6 ∨ opField w = 0x7 ∨ opField w = 0xA ∨ opField w = 0xB ∨
      opField w = 0xC)) ∨
    (argField w ≠ 0 ∧ (opField w = 0x1 ∨ opField w = 0x4 ∨ opField w = 0x5 ∨ opField w = 0xA ∨ opField w = 0xB ∨
      opField w = 0xC)) ∨
    (w.extractLsb' 8 3 ≠ 0 ∧ (opField w = 0x2 ∨ opField w = 0x3)) := by
  obtain hreserved | ⟨m, hm⟩ := reservedOpcode_or_opcode (opField w)
  · refine iff_of_true (fun m hmatch => ?_) (.inl hreserved)
    exact m.opcode_not_reserved (hmatch.1 ▸ hreserved)
  · have own : (∀ m : Mnemonic, ¬ m.Matches w) ↔ ¬ m.Matches w := by
      refine ⟨fun h => h m, fun h m' hmatch => ?_⟩
      obtain rfl := Mnemonic.opcode_injective (hm.symm.trans hmatch.1)
      exact h hmatch
    rw [own, Mnemonic.Matches, ← argHigh_argField]
    cases m <;> simp [hm, Mnemonic.opcode, Mnemonic.format, Format.UnusedZero] <;> tauto

end Sys2Proof

namespace Sys2Proof.Machine

/-- R180, R221: the step that writes an illegal word to `CMD` is a rejection with `ILLCMD`. -/
theorem step_illegalWord {s : State} {rest : List HostEvent} {w : Word} {e : Illegal} (hw : decode w = .error e)
    (hp : s.pending = .write 0x0000 4 w :: rest) :
    step s = .next (rejectedState 1 ((s.setPending rest).setResponse .ok)) := by
  have hexec : execute w (s.setPending rest) = .next (reject .illCmd ((s.setPending rest).setResponse .ok)) := by
    simp only [execute, hw]
  rw [step_cons hp]
  exact hexec.trans (congrArg _ (reject_eq .illCmd _))

/-- Settles O6: the decoder's errors, the rows of the table and R86's list all say that no mnemonic matches. -/
theorem illegalWordsAreRejectedWithIllCmd : Obligations.IllegalWordsAreRejectedWithIllCmd := by
  unfold Obligations.IllegalWordsAreRejectedWithIllCmd
  refine ⟨fun w => ?_, fun w => ?_, fun w => ?_, ?_, fun s rest w e => step_illegalWord⟩
  · rw [decode_isError_iff, forall_not_accepts_iff]
  · rw [error_iff_not_ok]
    exact em' _
  · rw [decode_isError_iff, forall_not_matches_iff]
  · exact ⟨.reservedOpcode, rfl⟩

end Sys2Proof.Machine
end

section
/-! PROOFS. What the builder makes of every segment (spec/40_builder.md R102, R103): where a scan ends, the tables as
functions, and which part of a segment they depend on. -/

namespace Sys2Proof.Machine

variable {n : Nat} [NeZero n]

/-! ### The scan (R102) -/

/-- The slots in scan order, by the number of visits before each. -/
theorem circ_eq_map_range (cur : Fin n) (f : Nat) : circ cur f = (List.range f).map fun v => cur + Fin.ofNat n v := by
  apply List.ext_getElem?
  intro d
  by_cases h : d < f
  · simp [circ_getElem? cur f d h, h]
  · rw [List.getElem?_eq_none (by rw [circ_length]; omega), List.getElem?_eq_none (by simp; omega)]

/-- A list can be cut at the element its filtered list has at position `t`: `t` elements before it pass the filter. -/
theorem exists_cut_of_getElem?_filter {α : Type} {p : α → Bool} {l : List α} {t : Nat} {c : α}
    (h : (l.filter p)[t]? = some c) : ∃ A B, l = A ++ c :: B ∧ p c = true ∧ (A.filter p).length = t := by
  obtain ⟨ht, rfl⟩ := List.getElem?_eq_some_iff.1 h
  have hcut : l.filter p = (l.filter p).take t ++ (l.filter p)[t] :: (l.filter p).drop (t + 1) := by simp
  obtain ⟨l₁, l₂, hl, h₁, h₂⟩ := List.filter_eq_append_iff.1 hcut
  obtain ⟨m₁, m₂, hm, hnone, hc, -⟩ := List.filter_eq_cons_iff.1 h₂
  refine ⟨l₁ ++ m₁, m₂, hl.trans (by rw [hm, List.append_assoc]), hc, ?_⟩
  rw [List.filter_append, h₁, List.filter_eq_nil_iff.2 hnone, List.append_nil, List.length_take]
  omega

omit [NeZero n] in
theorem unassigned_append (slot : Vector (Option (Fin n)) n) (l₁ l₂ : List (Fin n)) :
    unassigned slot (l₁ ++ l₂) = unassigned slot l₁ ++ unassigned slot l₂ := List.filter_append l₁ l₂

/-- The slot of rank `t` among the unassigned ones stands `d < f` visits after the cursor, and it is the `t + 1`-st
unassigned slot of those `d + 1` visits. -/
theorem unassigned_circ_rank {slot : Vector (Option (Fin n)) n} {cur c : Fin n} {f t : Nat}
    (h : (unassigned slot (circ cur f))[t]? = some c) :
    ∃ d, d < f ∧ c = cur + Fin.ofNat n d ∧ slot[c] = none ∧
      ((List.range (d + 1)).filter fun v => slot[cur + Fin.ofNat n v].isNone).length = t + 1 := by
  obtain ⟨A, B, hcirc, hnone, hrank⟩ := exists_cut_of_getElem?_filter h
  have hlen : A.length + (B.length + 1) = f := by simpa [hcirc] using circ_length f cur
  have hvisits : circ cur (A.length + 1) = A ++ [c] := by
    have hcut : circ cur (A.length + 1) ++ circ (cur + Fin.ofNat n (A.length + 1)) B.length = (A ++ [c]) ++ B := by
      rw [← circ_append, show A.length + 1 + B.length = f by omega, hcirc, List.append_assoc, List.singleton_append]
    exact (List.append_inj hcut (by simp [circ_length])).1
  have hc : some c = some (cur + Fin.ofNat n A.length) := by
    rw [← circ_getElem? cur f A.length (by omega), hcirc]
    simp
  refine ⟨A.length, by omega, Option.some.inj hc, Option.isNone_iff_eq_none.1 hnone, ?_⟩
  have hself : unassigned slot [c] = [c] := List.filter_cons_of_pos hnone
  have hcount : (unassigned slot (circ cur (A.length + 1))).length = t + 1 := by
    rw [hvisits, unassigned_append, List.length_append, hself, unassigned, hrank, List.length_singleton]
  simpa [circ_eq_map_range, unassigned, List.filter_map, Function.comp_def] using hcount

/-- At the start of iteration `i` exactly `N - i` slots are unassigned. -/
theorem unassigned_after_length (pw : Fin n → Nat) (i : Fin n) :
    (unassigned (Scan.after pw i.val).slot (circ (Scan.after pw i.val).cur n)).length = n - i.val := by
  have hlink := linked_after pw i.val i.isLt.le
  rw [hlink.free, hlink.len]

/-- In iteration `i` the slot of rank `pw[i] mod (N - i)` is where the scan ends, whatever the fuel beyond `N`. -/
theorem scanFrom_after (pw : Fin n → Nat) (i : Fin n) : ∃ c,
    (unassigned (Scan.after pw i.val).slot (circ (Scan.after pw i.val).cur n))[pw i % (n - i)]? = some c ∧
    ∀ fuel, n ≤ fuel →
      scanFrom (Scan.after pw i.val).slot (scanTarget pw i) fuel (Scan.after pw i.val).cur 0 = c := by
  obtain ⟨hpos, -, hrank⟩ := target_pos pw i
  replace hrank := hrank.trans_eq (unassigned_after_length pw i).symm
  refine ⟨_, List.getElem?_eq_getElem hrank, fun fuel hfuel => scanFrom_spec _ _ _ _ _ (by omega) _ ?_⟩
  have hsub : scanTarget pw i - 0 - 1 = pw i % (n - i) := by simp [scanTarget]
  obtain ⟨extra, rfl⟩ := Nat.exists_eq_add_of_le hfuel
  rw [hsub, circ_append, unassigned_append, List.getElem?_append_left hrank]
  exact List.getElem?_eq_getElem hrank

/-- Settles O23: the scan's end is the unassigned slot of rank `pw[i] mod (N - i)` in scan order, and there is one. -/
theorem scanAlwaysEndsOnAnUnassignedSlot : Obligations.ScanAlwaysEndsOnAnUnassignedSlot := by
  unfold Obligations.ScanAlwaysEndsOnAnUnassignedSlot
  intro n _ pw i
  obtain ⟨hpos, hle, -⟩ := target_pos pw i
  obtain ⟨c, hc, hscan⟩ := scanFrom_after pw i
  obtain ⟨d, hd, rfl, hnone, hcount⟩ := unassigned_circ_rank hc
  refine ⟨?_, hpos, hle, ⟨d, hd, hscan n le_rfl, hnone, ?_⟩, fun fuel hfuel => ?_⟩
  · rw [← unassigned_after_length pw i, unassigned]
    exact ((circ_perm _).filter _).length_eq.symm
  · rw [hcount, scanTarget, Nat.add_comm]
  · rw [hscan fuel hfuel, hscan n le_rfl]

/-! ### The tables (R103) -/

/-- The forward table holds what its slot holds after the last iteration (R100). -/
theorem buildPerm_fst_of_slot {pw : Fin n → Nat} {j v : Fin n} (h : (Scan.after pw n).slot[j] = some v) :
    (buildPerm pw).1[j] = v := by
  simp only [Fin.getElem_fin] at h
  simp [buildPerm, buildEnc, h]

theorem buildPerm_fst_surjective (pw : Fin n → Nat) : Function.Surjective fun x : Fin n => (buildPerm pw).1[x] :=
  fun v => (after_onto pw le_rfl v.isLt).imp fun _ => buildPerm_fst_of_slot

/-- A table of `N` entries that takes each of the `N` values takes none twice. -/
theorem buildPerm_fst_injective (pw : Fin n → Nat) : Function.Injective fun x : Fin n => (buildPerm pw).1[x] :=
  Finite.injective_iff_surjective.2 (buildPerm_fst_surjective pw)

theorem buildPerm_snd_fst (pw : Fin n → Nat) (x : Fin n) : (buildPerm pw).2[(buildPerm pw).1[x]] = x :=
  invertTable_spec _ (buildPerm_fst_injective pw) x

theorem buildPerm_fst_snd (pw : Fin n → Nat) (y : Fin n) : (buildPerm pw).1[(buildPerm pw).2[y]] = y := by
  obtain ⟨x, rfl⟩ := buildPerm_fst_surjective pw y
  exact congrArg (fun x : Fin n => (buildPerm pw).1[x]) (buildPerm_snd_fst pw x)

/-- An iteration sees of the segment only the residue `pw[i] mod (N - i)`. -/
theorem Scan.after_congr {pw pw' : Fin n → Nat} (h : ∀ i : Fin n, pw i % (n - i) = pw' i % (n - i)) (m : Nat) :
    Scan.after pw' m = Scan.after pw m := by
  have hassign : Scan.assign pw' = Scan.assign pw := by
    funext i st
    simp only [Scan.assign, scanTarget, h i]
  simp only [Scan.after, hassign]

theorem buildPerm_congr {pw pw' : Fin n → Nat} (h : ∀ i : Fin n, pw i % (n - i) = pw' i % (n - i)) :
    buildPerm pw' = buildPerm pw := by
  simp only [buildPerm, buildEnc, Scan.after_congr h]

/-- Settles O22: the scans put each of the `N` values on some slot, so the forward table is a bijection and the
inverting loop inverts it; an iteration sees the segment through its residue, which in the last one is modulo 1. -/
theorem buildPermGivesABijectionAndItsInverse : Obligations.BuildPermGivesABijectionAndItsInverse := by
  unfold Obligations.BuildPermGivesABijectionAndItsInverse
  intro n _ pw
  refine ⟨fun v => ?_, buildPerm_snd_fst pw, buildPerm_fst_snd pw, fun _ => buildPerm_congr, fun pw' h => ?_⟩
  · obtain ⟨x, hx⟩ := buildPerm_fst_surjective pw v
    exact ⟨x, hx, fun y hy => buildPerm_fst_injective pw (hy.trans hx.symm)⟩
  · refine buildPerm_congr fun i => ?_
    by_cases hi : i.val + 1 < n
    · rw [h i hi]
    · have hlast : n - i.val = 1 := by omega
      rw [hlast, Nat.mod_one, Nat.mod_one]

end Sys2Proof.Machine
end

section
/-! PROOFS. What `BUILD` leaves in the state (spec/40_builder.md R104), and that no other access but a reset touches a
table (R105). -/

namespace Sys2Proof

/-! ### The word of `BUILD` -/

theorem decodeZ_eq_ok {i j : Instr} {k : BoxIdx} {arg : Pos} (h : decodeZ i k arg = .ok j) : j = i := by
  unfold decodeZ at h
  split_ifs at h
  exact (Except.ok.inj h).symm

theorem decodeK_eq_ok {i : BoxIdx → Instr} {j : Instr} {k : BoxIdx} {arg : Pos} (h : decodeK i k arg = .ok j) :
    j = i k := by
  unfold decodeK at h
  split_ifs at h
  exact (Except.ok.inj h).symm

theorem decodeKB_eq_ok {i : BoxIdx → Byte → Instr} {j : Instr} {k : BoxIdx} {arg : Pos}
    (h : decodeKB i k arg = .ok j) : j = i k (argByte arg) := by
  unfold decodeKB at h
  split_ifs at h
  exact (Except.ok.inj h).symm

theorem decodeS_eq_ok {i : Pos → Instr} {j : Instr} {k : BoxIdx} {arg : Pos} (h : decodeS i k arg = .ok j) :
    j = i arg := by
  unfold decodeS at h
  split_ifs at h
  exact (Except.ok.inj h).symm

/-- Under a mnemonic's opcode the decoder answers a command of that mnemonic (R83, R87). -/
theorem decodeOp_opcode_mnemonic {m : Mnemonic} {k : BoxIdx} {arg : Pos} {i : Instr}
    (h : decodeOp m.opcode k arg = .ok i) : i.mnemonic = m := by
  cases m with
  | build | blkEnc | blkDec | clrErr => exact congrArg Instr.mnemonic (decodeZ_eq_ok h)
  | subEnc | subDec => exact congrArg Instr.mnemonic (decodeK_eq_ok h)
  | sbEnc | sbDec => exact congrArg Instr.mnemonic (decodeKB_eq_ok h)
  | pbEnc | pbDec => exact congrArg Instr.mnemonic (decodeS_eq_ok h)
  | rndEnc | rndDec => exact congrArg Instr.mnemonic (Except.ok.inj h).symm

/-- A word decodes to a command of the mnemonic it matches. -/
theorem matches_of_decode {w : Word} {i : Instr} (h : decode w = .ok i) : i.mnemonic.Matches w := by
  obtain ⟨m, hm⟩ := (decode_isOk_iff w).1 ⟨i, h⟩
  have ⟨hop, h27, h23, _⟩ := hm
  have hi : decodeOp m.opcode (kField w) (argField w) = .ok i := by
    rw [← hop, ← h, decode, if_neg (not_not.2 h27), if_neg (not_not.2 h23)]
  rwa [decodeOp_opcode_mnemonic hi]

/-- `BUILD` has one word. -/
theorem decode_eq_build {w : Word} (h : decode w = .ok .build) : w = 0x10000000 := by
  obtain ⟨hop, h27, h23, hk, harg⟩ := matches_of_decode h
  exact (eq_commandWord_iff w 0x1 0 0).2 ⟨hop, h27, hk, h23, harg⟩

end Sys2Proof

namespace Sys2Proof.Machine

/-! ### Only `BUILD` writes a table (R105) -/

/-- The four arrays of tables (R28, R29). -/
def State.tables (s : State) : Boxes × Boxes × PTable × PTable := (s.se, s.sd, s.pe, s.pd)

theorem State.tables_eq_iff {s t : State} :
    t.tables = s.tables ↔ t.se = s.se ∧ t.sd = s.sd ∧ t.pe = s.pe ∧ t.pd = s.pd := by
  simp [State.tables]

theorem afterCommand_tables {i : Instr} (hi : i ≠ .build) (s : State) : (afterCommand i s).tables = s.tables := by
  rw [afterCommand, if_neg hi]
  split_ifs <;> rfl

theorem reject_tables (e : CmdError) (s : State) : (reject e s).tables = s.tables := by
  rw [reject_eq]
  rfl

theorem windowWrite_tables {s u : State} {off : Nat} {v : Word} (h : windowWrite s off v = some u) :
    u.tables = s.tables := by
  obtain ⟨b, rfl⟩ | ⟨b, rfl⟩ | ⟨k, rfl⟩ := windowWrite_cases h <;> rfl

/-- Settles O27: of what a step can do, only the reset input and the command `BUILD` write a table. -/
theorem tablesChangeOnlyByBuild : Obligations.TablesChangeOnlyByBuild := by
  unfold Obligations.TablesChangeOnlyByBuild
  intro s t hstep hother
  rw [← State.tables_eq_iff]
  obtain ⟨-, rfl⟩ | ⟨e, rest, hp, hcase⟩ := step_cases hstep
  · rfl
  obtain ⟨hnoReset, hnoBuild⟩ := hother e rest hp
  obtain ⟨off, n, w, -, -, rfl⟩ | ⟨off, n, v, -, rfl⟩ | ⟨w, i, rfl, hi, rfl⟩ | ⟨w, x, -, -, rfl⟩ |
    ⟨off, v, u, -, -, hu, rfl⟩ | ⟨hreset, -⟩ := hcase
  · rfl
  · rfl
  · have hne : i ≠ .build := by
      rintro rfl
      exact hnoBuild (by rw [decode_eq_build hi])
    exact afterCommand_tables hne _
  · exact reject_tables _ _
  · change u.tables = (s.setPending rest).tables
    exact windowWrite_tables hu
  · rw [hnoReset] at hreset
    cases hreset

/-! ### The segments of the key (R104) -/

theorem byteOfKey_of_lt (s : State) {j : Nat} (h : j < 4096) : byteOfKey s j = s.key[j] := dif_pos h

theorem boxSegment_eq_byteOfKey (s : State) (k : Fin 8) :
    boxSegment s.key k = fun i : Fin 256 => (byteOfKey s (256 * k + i)).toNat := by
  funext i
  rw [byteOfKey_of_lt s (by omega), boxSegment]

theorem pboxSegment_eq_byteOfKey (s : State) :
    pboxSegment s.key = fun i : Fin 2048 => (byteOfKey s (2048 + i)).toNat := by
  funext i
  rw [byteOfKey_of_lt s (by omega), pboxSegment]

/-! ### The segment of zeros -/

section ZeroSegment

variable {n : Nat} [NeZero n]

/-- With a segment of zeros every iteration takes the head of R106's list. -/
theorem listAfter_zero_fst {m : Nat} (hm : m ≤ n) :
    (listAfter (fun _ : Fin n => 0) m).1 = (List.ofFn (id : Fin n → Fin n)).drop m := by
  induction m with
  | zero => rfl
  | succ m ih =>
    have hlt : m < n := hm
    change (listAssign (fun _ => 0) (Fin.ofNat n m) (listAfter (fun _ => 0) m)).1 = _
    simp [listAssign, ih hlt.le, hlt]

/-- The slot where the scan of iteration `i` ends holds `i` from then on. -/
theorem after_slot_of_scanFrom {pw : Fin n → Nat} {i c : Fin n}
    (h : scanFrom (Scan.after pw i.val).slot (scanTarget pw i) n (Scan.after pw i.val).cur 0 = c) :
    (Scan.after pw n).slot[c] = some i := by
  have hassign : (Scan.after pw (i.val + 1)).slot[c] = some i := by
    have hi : Fin.ofNat n i.val = i := Fin.ext (ofNat_val i.isLt)
    rw [Scan.after, iterUp_succ, ← Scan.after, hi, Scan.assign]
    simp [h]
  have hkept := after_keeps pw (k := n - (i.val + 1)) (by omega) hassign
  rwa [Nat.add_sub_cancel' (by omega)] at hkept

/-- With a segment of zeros iteration `i` takes slot `i`. -/
theorem after_zero_slot (i : Fin n) : (Scan.after (fun _ : Fin n => 0) n).slot[i] = some i := by
  obtain ⟨-, hhead, -⟩ := linked_step (fun _ : Fin n => 0) i _ _ (linked_after _ i.val i.isLt.le)
  rw [listAfter_zero_fst i.isLt.le] at hhead
  refine after_slot_of_scanFrom (Option.some.inj (hhead.symm.trans ?_))
  simp

theorem buildPerm_zero_fst (x : Fin n) : (buildPerm fun _ : Fin n => 0).1[x] = x :=
  buildPerm_fst_of_slot (after_zero_slot x)

theorem buildPerm_zero_snd (y : Fin n) : (buildPerm fun _ : Fin n => 0).2[y] = y := by
  rw [← buildPerm_zero_fst (buildPerm fun _ : Fin n => 0).2[y], buildPerm_fst_snd]

end ZeroSegment

/-! ### The state after `BUILD` (R104) -/

theorem exec_build (s : State) : exec .build s = .next (construct s) := rfl

/-- `BUILD` reads `KEY` alone. -/
theorem construct_tables_congr {s t : State} (h : t.key = s.key) : (construct t).tables = (construct s).tables := by
  simp [State.tables, construct, h]

/-- A second `BUILD` finds the same `KEY`, which the first did not write. -/
theorem construct_construct (s : State) : construct (construct s) = construct s := by
  obtain ⟨hse, hsd, hpe, hpd⟩ := State.tables_eq_iff.1 (construct_tables_congr (construct_key s))
  apply State.eq_of_fields <;> simp only [hse, hsd, hpe, hpd, construct_key, construct_seed, construct_blk,
    construct_keyed, construct_err, construct_result, construct_pending, construct_response, construct_resets]

theorem construct_windowByte (s : State) {a : Nat} (h : ¬ (0x0200 ≤ a ∧ a ≤ 0x02FF)) :
    (construct s).windowByte a = s.windowByte a := by
  simp only [State.windowByte, dif_neg h, construct_blk, construct_key]

theorem construct_onlyBuilt (s : State) : OnlyBuilt s (construct s) :=
  ⟨rfl, fun _ => construct_windowByte s⟩

theorem construct_identityTables {s : State} (h : ∀ j, byteOfKey s j = 0) : (construct s).IdentityTables := by
  have hbox (k : Fin 8) : boxSegment s.key k = fun _ => 0 := by
    simp [boxSegment_eq_byteOfKey, h]
  have hpbox : pboxSegment s.key = fun _ => 0 := by
    simp [pboxSegment_eq_byteOfKey, h]
  refine ⟨fun k x => ?_, fun k y => ?_, fun p => ?_, fun q => ?_⟩
  · rw [construct_sboxEnc, hbox, buildPerm_zero_fst]
  · rw [construct_sboxDec, hbox, buildPerm_zero_snd]
  · rw [construct_pe, hpbox, buildPerm_zero_fst]
  · rw [construct_pd, hpbox, buildPerm_zero_snd]

/-- Settles O26: `BUILD` leaves `construct s`, whose tables are the builder's of the key's segments. -/
theorem buildMakesTheTablesOfTheKey : Obligations.BuildMakesTheTablesOfTheKey := by
  unfold Obligations.BuildMakesTheTablesOfTheKey
  refine ⟨by decide, fun s => ⟨construct s, exec_build s, fun k x => ?_, fun p => ?_, fun j => ?_,
    construct_keyed s, construct_onlyBuilt s, construct_identityTables,
    (exec_build _).trans (congrArg _ (construct_construct s))⟩⟩
  · rw [← boxSegment_eq_byteOfKey]
    rw [← sboxEnc, ← sboxDec, construct_sboxEnc, construct_sboxDec]
    exact ⟨BitVec.toNat_ofFin _, BitVec.toNat_ofFin _⟩
  · rw [← pboxSegment_eq_byteOfKey]
    rw [construct_pe, construct_pd]
    exact ⟨BitVec.toNat_ofFin _, BitVec.toNat_ofFin _⟩
  · simp [zero256]

end Sys2Proof.Machine
end

section
/-! PROOFS. Rules shared by the table-using commands: the word of a command (spec/30_encoding.md R81 to R85), what such a
command answers on a keyed and on an unkeyed engine (R121, R141, R169, R222), and the frames of its two writes. -/

namespace Sys2Proof

/-! ### Command words -/

theorem encode_toNat (i : Instr) :
    (encode i).toNat = i.mnemonic.opcode.toNat * 2 ^ 28 + i.indexField.toNat * 2 ^ 24 + i.argument.toNat :=
  commandWord_toNat _ _ _

/-- A word with zero reserved fields is decoded by its three other fields alone (R87). -/
theorem decode_commandWord (op : BitVec 4) (k : BoxIdx) (arg : Pos) :
    decode (commandWord op k arg) = decodeOp op k arg := by
  simp [decode]

/-- R86: an argument with a non-zero high part names no byte. -/
theorem decodeKB_append_eq_error (i : BoxIdx → Byte → Instr) (k : BoxIdx) {h : BitVec 3} (hh : h ≠ 0) (x : Byte) :
    decodeKB i k (h ++ x) = .error .strayArgHigh := by
  have hstray : argHigh (h ++ x) ≠ 0 := by rwa [(argument_parts h x).1]
  exact if_pos hstray

end Sys2Proof

namespace Sys2Proof.Machine

/-! ### What a table-using command answers -/

theorem exec_block {i : Instr} {s : State} (hi : writesBlk i = true) (hs : s.keyed = true) :
    exec i s = .next (s.setBlk (blockAfter i s)) := by
  rw [exec_eq, afterCommand_block hi hs]

theorem blockAfter_of_not_writesBlk {i : Instr} (h : writesBlk i = false) (s : State) : blockAfter i s = s.blk := by
  cases i with
  | build | sbEnc | sbDec | clrErr => rfl
  | subEnc | subDec | pbEnc | pbDec | rndEnc | rndDec | blkEnc | blkDec => cases h

/-- A table-using command that is no block command is a lookup: on a keyed engine it writes `RESULT` and nothing else. -/
theorem exec_lookup {i : Instr} {s : State} (hi : needsTables i = true) (hb : writesBlk i = false)
    (hs : s.keyed = true) : exec i s = .next (s.setResult (resultAfter i s)) := by
  rw [exec_eq, afterCommand_keyed hi hs, blockAfter_of_not_writesBlk hb, State.setBlk_self]

theorem exec_unkeyed {i : Instr} {s : State} (hi : needsTables i = true) (hs : s.keyed = false) :
    exec i s = .next (rejectedState 2 s) := by
  rw [exec_eq, afterCommand_unkeyed hi hs]

/-! ### Frames -/

theorem onlyBlk_setBlk (s : State) (b : Block) : OnlyBlk s (s.setBlk b) := by
  refine ⟨rfl, fun a ha => ?_⟩
  simp only [State.windowByte, dif_neg ha, State.setBlk_seed, State.setBlk_key]

theorem onlyResult_setResult (s : State) (v : Byte) : OnlyResult s (s.setResult v) :=
  ⟨rfl, fun _ => rfl⟩

end Sys2Proof.Machine
end

section
/-! PROOFS. SBox lookups and the substitution stage (spec/41_sbox.md): the cascade through the eight boxes, one lane of each
stage, and what `SUB.ENC`, `SUB.DEC`, `SB.ENC` and `SB.DEC` do. -/

namespace Sys2Proof.Machine

/-! ### The cascade (R125) -/

theorem cascEnc_eq (s : State) (v : Byte) :
    cascEnc s.se v = sboxEnc s 7 (sboxEnc s 6 (sboxEnc s 5 (sboxEnc s 4 (sboxEnc s 3 (sboxEnc s 2 (sboxEnc s 1
      (sboxEnc s 0 v))))))) := rfl

theorem cascDec_eq (s : State) (v : Byte) :
    cascDec s.sd v = sboxDec s 0 (sboxDec s 1 (sboxDec s 2 (sboxDec s 3 (sboxDec s 4 (sboxDec s 5 (sboxDec s 6
      (sboxDec s 7 v))))))) := rfl

theorem cascEnc_of_identityTables {s : State} (h : s.IdentityTables) (v : Byte) : cascEnc s.se v = v := by
  simp only [cascEnc_eq, h.se]

/-! ### One lane of a stage (R126 to R128) -/

theorem byteAt_subEncBlock (s : State) (r : BoxIdx) (b : Block) (i : Byte) :
    byteAt (subEncBlock s.se r b) i = cascEnc s.se (byteAt b i ^^^ sboxEnc s r i) :=
  byteAt_tabulate _ i

theorem byteAt_subDecBlock (s : State) (r : BoxIdx) (b : Block) (i : Byte) :
    byteAt (subDecBlock s.se s.sd r b) i = cascDec s.sd (byteAt b i) ^^^ sboxEnc s r i :=
  byteAt_tabulate _ i

/-! ### The four commands on a keyed engine -/

theorem exec_subEnc {s : State} (hs : s.keyed = true) (r : BoxIdx) :
    exec (.subEnc r) s = .next (s.setBlk (subEncBlock s.se r s.blk)) := exec_block rfl hs

theorem exec_subDec {s : State} (hs : s.keyed = true) (r : BoxIdx) :
    exec (.subDec r) s = .next (s.setBlk (subDecBlock s.se s.sd r s.blk)) := exec_block rfl hs

theorem exec_sbEnc {s : State} (hs : s.keyed = true) (k : BoxIdx) (x : Byte) :
    exec (.sbEnc k x) s = .next (s.setResult (sboxEnc s k x)) := exec_lookup rfl rfl hs

theorem exec_sbDec {s : State} (hs : s.keyed = true) (k : BoxIdx) (y : Byte) :
    exec (.sbDec k y) s = .next (s.setResult (sboxDec s k y)) := exec_lookup rfl rfl hs

/-! ### The words of the four commands (R85) -/

theorem encode_subEnc_toNat (r : BoxIdx) : (encode (.subEnc r)).toNat = 0x40000000 + r.toNat * 2 ^ 24 := by
  simp [encode_toNat, Instr.mnemonic, Mnemonic.opcode, Instr.indexField, Instr.argument]

theorem encode_subDec_toNat (r : BoxIdx) : (encode (.subDec r)).toNat = 0x50000000 + r.toNat * 2 ^ 24 := by
  simp [encode_toNat, Instr.mnemonic, Mnemonic.opcode, Instr.indexField, Instr.argument]

theorem encode_sbEnc_toNat (k : BoxIdx) (x : Byte) :
    (encode (.sbEnc k x)).toNat = 0x20000000 + k.toNat * 2 ^ 24 + x.toNat := by
  simp [encode_toNat, Instr.mnemonic, Mnemonic.opcode, Instr.indexField, Instr.argument, byteArg_toNat]

theorem encode_sbDec_toNat (k : BoxIdx) (y : Byte) :
    (encode (.sbDec k y)).toNat = 0x30000000 + k.toNat * 2 ^ 24 + y.toNat := by
  simp [encode_toNat, Instr.mnemonic, Mnemonic.opcode, Instr.indexField, Instr.argument, byteArg_toNat]

/-! ### The obligations -/

/-- Settles O31: the block written is the stage's, lane by lane the cascade of the lane xor its key byte. -/
theorem subEncTransformsEveryLane : Obligations.SubEncTransformsEveryLane := by
  unfold Obligations.SubEncTransformsEveryLane
  refine fun r s => ⟨encode_subEnc_toNat r, fun hs => ?_, exec_unkeyed rfl⟩
  refine ⟨_, exec_subEnc hs r, fun i => ?_, onlyBlk_setBlk s _, fun hid i => ?_⟩ <;>
    rw [State.setBlk_blk, byteAt_subEncBlock]
  · rw [cascEnc_eq]
  · rw [cascEnc_of_identityTables hid, hid.se]

/-- Settles O32: the block written is the inverse stage's; the key byte enters after the inverse cascade. -/
theorem subDecTransformsEveryLane : Obligations.SubDecTransformsEveryLane := by
  unfold Obligations.SubDecTransformsEveryLane
  refine fun r s => ⟨encode_subDec_toNat r, fun hs => ?_, exec_unkeyed rfl⟩
  refine ⟨_, exec_subDec hs r, fun i => ?_, onlyBlk_setBlk s _⟩
  rw [State.setBlk_blk, byteAt_subDecBlock, cascDec_eq]

/-- Settles O28: a lookup writes the forward table's entry to `RESULT`. -/
theorem sbEncLooksUpTheForwardTable : Obligations.SbEncLooksUpTheForwardTable := by
  unfold Obligations.SbEncLooksUpTheForwardTable
  refine fun k x s => ⟨encode_sbEnc_toNat k x, fun hs => ?_, exec_unkeyed rfl, fun h hh => ?_⟩
  · exact ⟨_, exec_sbEnc hs k x, rfl, onlyResult_setResult s _, fun hid => hid.se k x⟩
  · rw [decode_commandWord]
    exact decodeKB_append_eq_error .sbEnc k hh x

/-- Settles O29: a lookup writes the inverse table's entry to `RESULT`; after `SB.ENC` that entry is the byte looked up
(R124). -/
theorem sbDecLooksUpTheInverseTable : Obligations.SbDecLooksUpTheInverseTable := by
  unfold Obligations.SbDecLooksUpTheInverseTable
  refine fun k y s => ⟨encode_sbDec_toNat k y, fun hs => ?_, fun hs hinv => ?_, exec_unkeyed rfl, fun h hh => ?_⟩
  · exact ⟨_, exec_sbDec hs k y, rfl, onlyResult_setResult s _⟩
  · have hm : (s.setResult (sboxEnc s k y)).keyed = true := hs
    exact ⟨_, _, exec_sbEnc hs k y, exec_sbDec hm k _, hinv.sdSe k y⟩
  · rw [decode_commandWord]
    exact decodeKB_append_eq_error .sbDec k hh y

end Sys2Proof.Machine
end

section
/-! PROOFS. The two PBox passes (spec/42_pbox.md): what a reversible move of the bits keeps, where each pass takes a bit,
and what `PB.ENC` and `PB.DEC` do. -/

namespace Sys2Proof.Machine

/-! ### A reversible move of the bits -/

/-- The set positions counted over the finite type of positions, on which a bijection keeps the count. -/
theorem onesCount_eq_card (b : Block) :
    onesCount b = (Finset.univ.filter fun i : Fin 2048 => bitAt b (BitVec.ofFin i) = true).card := by
  have hpos (i : Fin 2048) : BitVec.ofNat 11 i.val = BitVec.ofFin i := BitVec.ofFin_eq_ofNat.symm
  rw [onesCount, ← List.map_coe_finRange_eq_range, List.filter_map, List.length_map]
  simp [Finset.card, Fin.univ_def, Function.comp_def, hpos]

section Reversible
variable {move back : Pos → Pos} (hback : ∀ p, back (move p) = p) (hmove : ∀ d, move (back d) = d)
include hback hmove

theorem bitAt_scatter_move (b : Block) (p : Pos) : bitAt (scatter move b) (move p) = bitAt b p := by
  rw [bitAt_scatter_bij move back hback hmove, hback]

theorem scatter_of_constant {b : Block} {c : Bool} (hb : ∀ p, bitAt b p = c) : scatter move b = b :=
  block_ext_bits fun d => by rw [bitAt_scatter_bij move back hback hmove, hb, hb]

/-- The set positions of the input and those of the output correspond by `move`. -/
theorem onesCount_scatter (b : Block) : onesCount (scatter move b) = onesCount b := by
  have hbij : Function.Bijective fun i : Fin 2048 => (move (BitVec.ofFin i)).toFin :=
    Function.bijective_iff_has_inverse.2 ⟨fun i => (back (BitVec.ofFin i)).toFin,
      fun i => congrArg BitVec.toFin (hback (BitVec.ofFin i)), fun i => congrArg BitVec.toFin (hmove (BitVec.ofFin i))⟩
  rw [onesCount_eq_card, onesCount_eq_card]
  refine (Finset.card_bijective _ hbij fun i => ?_).symm
  rw [Finset.mem_filter_univ, Finset.mem_filter_univ, BitVec.ofFin_toFin, bitAt_scatter_move hback hmove]

end Reversible

/-! ### Where the two passes take a bit (R142 to R145, R150) -/

/-- Where `PBoxEnc(B, seed)` takes the bit at `p` (R144). -/
def encMove (pe : PTable) (seed p : Pos) : Pos := posAt pe (p + seed)

/-- Where `PBoxDec(B, seed)` takes the bit at `q` (R145). -/
def decMove (pd : PTable) (seed q : Pos) : Pos := posAt pd q - seed

theorem pboxEnc_eq_scatter (pe : PTable) (seed : Pos) (b : Block) : pboxEnc pe seed b = scatter (encMove pe seed) b := rfl

theorem pboxDec_eq_scatter (pd : PTable) (seed : Pos) (b : Block) : pboxDec pd seed b = scatter (decMove pd seed) b := rfl

/-- The subtraction of R145 on numbers (R150). -/
theorem decMove_eq_iff_toNat (pd : PTable) (seed q d : Pos) :
    decMove pd seed q = d ↔ d.toNat = ((posAt pd q).toNat + 2048 - seed.toNat) % 2048 := by
  rw [decMove, ← BitVec.toNat_inj, BitVec.toNat_sub]
  omega

/-- R148, bit by bit: the move of the decode pass undoes that of the encode pass. -/
theorem State.TablesInverse.decMove_encMove {s : State} (h : s.TablesInverse) (seed p : Pos) :
    decMove s.pd seed (encMove s.pe seed p) = p := by
  rw [decMove, encMove, h.pdPe, BitVec.add_sub_cancel]

/-- R148, bit by bit: the move of the encode pass undoes that of the decode pass. -/
theorem State.TablesInverse.encMove_decMove {s : State} (h : s.TablesInverse) (seed q : Pos) :
    encMove s.pe seed (decMove s.pd seed q) = q := by
  rw [decMove, encMove, BitVec.sub_add_cancel, h.pePd]

/-! ### The two commands -/

theorem exec_pbEnc {s : State} (hs : s.keyed = true) (seed : Pos) :
    exec (.pbEnc seed) s = .next (s.setBlk (pboxEnc s.pe seed s.blk)) := exec_block rfl hs

theorem exec_pbDec {s : State} (hs : s.keyed = true) (seed : Pos) :
    exec (.pbDec seed) s = .next (s.setBlk (pboxDec s.pd seed s.blk)) := exec_block rfl hs

theorem encode_pbEnc_toNat (seed : Pos) : (encode (.pbEnc seed)).toNat = 0x60000000 + seed.toNat := by
  simp [encode_toNat, Instr.mnemonic, Mnemonic.opcode, Instr.indexField, Instr.argument]

theorem encode_pbDec_toNat (seed : Pos) : (encode (.pbDec seed)).toNat = 0x70000000 + seed.toNat := by
  simp [encode_toNat, Instr.mnemonic, Mnemonic.opcode, Instr.indexField, Instr.argument]

/-! ### The obligations -/

/-- Settles O34: the block written is the input's bits moved by `encMove`, which inverse tables make reversible. -/
theorem pbEncMovesEveryBit : Obligations.PbEncMovesEveryBit := by
  unfold Obligations.PbEncMovesEveryBit
  refine fun seed s => ⟨encode_pbEnc_toNat seed, fun hs => ?_, exec_unkeyed rfl⟩
  refine ⟨_, exec_pbEnc hs seed, onlyBlk_setBlk s _, ?_, fun h => ?_⟩ <;>
    rw [State.setBlk_blk, pboxEnc_eq_scatter]
  · exact bitAt_scatter (encMove s.pe seed) s.blk
  · have hback := h.decMove_encMove seed
    have hmove := h.encMove_decMove seed
    have hconst {c : Bool} (hb : ∀ p, bitAt s.blk p = c) : s.setBlk (scatter (encMove s.pe seed) s.blk) = s := by
      rw [scatter_of_constant hback hmove hb, State.setBlk_self]
    exact ⟨bitAt_scatter_move hback hmove s.blk, onesCount_scatter hback hmove s.blk, hconst, hconst⟩

/-- Settles O35: the block written is the input's bits moved by `decMove`, which inverse tables make reversible. -/
theorem pbDecMovesEveryBit : Obligations.PbDecMovesEveryBit := by
  unfold Obligations.PbDecMovesEveryBit
  refine fun seed s => ⟨encode_pbDec_toNat seed, fun hs => ?_, exec_unkeyed rfl⟩
  refine ⟨_, exec_pbDec hs seed, onlyBlk_setBlk s _, fun d => ?_, fun h => ?_⟩ <;>
    rw [State.setBlk_blk, pboxDec_eq_scatter]
  · simp only [bitAt_scatter, decMove_eq_iff_toNat]
  · exact bitAt_scatter_move (h.encMove_decMove seed) (h.decMove_encMove seed) s.blk

end Sys2Proof.Machine
end

section
/-! PROOFS. Inverse and identity tables (spec/10_state.md R32, spec/40_builder.md R104) under the cascade, the substitution
stage, the PBox, one round and the eight-round pass: which of these undo each other, and what the identity leaves. -/

namespace Sys2Proof.Machine

/-- Two blocks with the same lanes are the same block. -/
theorem block_ext_bytes {a b : Block} (h : ∀ i, byteAt a i = byteAt b i) : a = b := by
  refine Vector.ext fun i hi => ?_
  simpa [byteAt, Nat.mod_eq_of_lt hi] using h (BitVec.ofNat 8 i)

/-! ### A reversible move of the bits -/

theorem scatter_scatter {move back : Pos → Pos} (hback : ∀ p, back (move p) = p) (hmove : ∀ d, move (back d) = d)
    (b : Block) : scatter back (scatter move b) = b :=
  block_ext_bits fun p => by rw [bitAt_scatter_bij back move hmove hback, bitAt_scatter_move hback hmove]

theorem scatter_of_forall_eq {move : Pos → Pos} (h : ∀ p, move p = p) (b : Block) : scatter move b = b :=
  block_ext_bits fun p => bitAt_scatter_bij move id h h b p

/-! ### Inverse tables -/

namespace State.TablesInverse
variable {s : State} (h : s.TablesInverse)
include h

theorem cascDec_cascEnc (v : Byte) : cascDec s.sd (cascEnc s.se v) = v :=
  iterDown_iterUp _ _ 8 (fun k v _ => h.sdSe (BitVec.ofNat 3 k) v) v

theorem cascEnc_cascDec (v : Byte) : cascEnc s.se (cascDec s.sd v) = v :=
  iterUp_iterDown _ _ 8 (fun k v _ => h.seSd (BitVec.ofNat 3 k) v) v

theorem subDecBlock_subEncBlock (r : BoxIdx) (b : Block) : subDecBlock s.se s.sd r (subEncBlock s.se r b) = b :=
  block_ext_bytes fun i => by
    rw [byteAt_subDecBlock, byteAt_subEncBlock, h.cascDec_cascEnc, BitVec.xor_assoc, BitVec.xor_self, BitVec.xor_zero]

theorem subEncBlock_subDecBlock (r : BoxIdx) (b : Block) : subEncBlock s.se r (subDecBlock s.se s.sd r b) = b :=
  block_ext_bytes fun i => by
    rw [byteAt_subEncBlock, byteAt_subDecBlock, BitVec.xor_assoc, BitVec.xor_self, BitVec.xor_zero, h.cascEnc_cascDec]

theorem pboxDec_pboxEnc (p : Pos) (b : Block) : pboxDec s.pd p (pboxEnc s.pe p b) = b :=
  scatter_scatter (h.decMove_encMove p) (h.encMove_decMove p) b

theorem pboxEnc_pboxDec (p : Pos) (b : Block) : pboxEnc s.pe p (pboxDec s.pd p b) = b :=
  scatter_scatter (h.encMove_decMove p) (h.decMove_encMove p) b

theorem roundDec_roundEnc (r : BoxIdx) (p : Pos) (b : Block) : roundDec s r p (roundEnc s r p b) = b := by
  rw [roundDec, roundEnc, h.pboxDec_pboxEnc, h.subDecBlock_subEncBlock]

theorem roundEnc_roundDec (r : BoxIdx) (p : Pos) (b : Block) : roundEnc s r p (roundDec s r p b) = b := by
  rw [roundDec, roundEnc, h.subEncBlock_subDecBlock, h.pboxEnc_pboxDec]

theorem passDec_passEnc (b : Block) : passDec s (passEnc s b) = b :=
  iterDown_iterUp _ _ 8 (fun r b _ => h.roundDec_roundEnc (BitVec.ofNat 3 r) 0 b) b

theorem passEnc_passDec (b : Block) : passEnc s (passDec s b) = b :=
  iterUp_iterDown _ _ 8 (fun r b _ => h.roundEnc_roundDec (BitVec.ofNat 3 r) 0 b) b

end State.TablesInverse

/-! ### Identity tables -/

namespace State.IdentityTables
variable {s : State} (h : s.IdentityTables)
include h

theorem pboxEnc_zero (b : Block) : pboxEnc s.pe 0 b = b :=
  scatter_of_forall_eq (fun p => (h.pe _).trans (BitVec.add_zero p)) b

/-- In every round lane `i` is xored with its own number. -/
theorem byteAt_roundEnc_zero (r : BoxIdx) (b : Block) (i : Byte) : byteAt (roundEnc s r 0 b) i = byteAt b i ^^^ i := by
  rw [roundEnc, h.pboxEnc_zero, byteAt_subEncBlock, cascEnc_of_identityTables h, h.se]

theorem roundEnc_roundEnc_zero (r r' : BoxIdx) (b : Block) : roundEnc s r' 0 (roundEnc s r 0 b) = b :=
  block_ext_bytes fun i => by
    rw [h.byteAt_roundEnc_zero, h.byteAt_roundEnc_zero, BitVec.xor_assoc, BitVec.xor_self, BitVec.xor_zero]

/-- The number of rounds is even, and they cancel in pairs. -/
theorem passEnc_eq (b : Block) : passEnc s b = b := by
  simp only [passEnc, iterUp_succ, iterUp_zero, h.roundEnc_roundEnc_zero]

end State.IdentityTables

end Sys2Proof.Machine
end

section
/-! PROOFS. SPN rounds and the eight-round pass (spec/43_spn.md): the four commands on a keyed engine, a pass as the sequence
of its rounds, and what undoes what (R160 to R165). -/

namespace Sys2Proof.Machine

/-! ### The four commands on a keyed engine -/

theorem exec_rndEnc {s : State} (hs : s.keyed = true) (r : BoxIdx) (p : Pos) :
    exec (.rndEnc r p) s = .next (s.setBlk (roundEnc s r p s.blk)) := exec_block rfl hs

theorem exec_rndDec {s : State} (hs : s.keyed = true) (r : BoxIdx) (p : Pos) :
    exec (.rndDec r p) s = .next (s.setBlk (roundDec s r p s.blk)) := exec_block rfl hs

theorem exec_blkEnc {s : State} (hs : s.keyed = true) : exec .blkEnc s = .next (s.setBlk (passEnc s s.blk)) :=
  exec_block rfl hs

theorem exec_blkDec {s : State} (hs : s.keyed = true) : exec .blkDec s = .next (s.setBlk (passDec s s.blk)) :=
  exec_block rfl hs

/-! ### The words of the round commands (R85) -/

theorem encode_rndEnc_toNat (r : BoxIdx) (p : Pos) :
    (encode (.rndEnc r p)).toNat = 0x80000000 + r.toNat * 2 ^ 24 + p.toNat := by
  simp [encode_toNat, Instr.mnemonic, Mnemonic.opcode, Instr.indexField, Instr.argument]

theorem encode_rndDec_toNat (r : BoxIdx) (p : Pos) :
    (encode (.rndDec r p)).toNat = 0x90000000 + r.toNat * 2 ^ 24 + p.toNat := by
  simp [encode_toNat, Instr.mnemonic, Mnemonic.opcode, Instr.indexField, Instr.argument]

/-! ### Sequences of block commands -/

/-- On a keyed engine a sequence of block commands hands the block from one to the next and changes nothing else. -/
theorem execSeq_block {s : State} (hs : s.keyed = true) {l : List Instr} (hl : ∀ i ∈ l, writesBlk i = true) :
    execSeq l s = .next (s.setBlk (l.foldl (fun b i => blockAfter i (s.setBlk b)) s.blk)) := by
  induction l generalizing s with
  | nil => rfl
  | cons i rest ih =>
    obtain ⟨hi, hrest⟩ := List.forall_mem_cons.1 hl
    have hs' : (s.setBlk (blockAfter i s)).keyed = true := hs
    rw [execSeq_cons, afterCommand_block hi hs, ih hs' hrest]
    rfl

theorem passEnc_eq_foldl (s : State) (b : Block) :
    passEnc s b = [0, 1, 2, 3, 4, 5, 6, 7].foldl (fun b r => roundEnc s r 0 b) b := by
  simp only [passEnc, iterUp_succ, iterUp_zero, List.foldl]
  rfl

theorem passDec_eq_foldl (s : State) (b : Block) :
    passDec s b = [7, 6, 5, 4, 3, 2, 1, 0].foldl (fun b r => roundDec s r 0 b) b := rfl

/-- R162: the encode pass is its eight rounds, one command each. -/
theorem execSeq_rndEnc_upward {s : State} (hs : s.keyed = true) :
    execSeq [.rndEnc 0 0, .rndEnc 1 0, .rndEnc 2 0, .rndEnc 3 0, .rndEnc 4 0, .rndEnc 5 0, .rndEnc 6 0, .rndEnc 7 0] s
      = .next (s.setBlk (passEnc s s.blk)) := by
  rw [execSeq_block hs (by decide), passEnc_eq_foldl]
  simp only [List.foldl, blockAfter_rndEnc, roundEnc_setBlk, State.setBlk_blk]

/-- R163: the decode pass is its eight rounds, one command each. -/
theorem execSeq_rndDec_downward {s : State} (hs : s.keyed = true) :
    execSeq [.rndDec 7 0, .rndDec 6 0, .rndDec 5 0, .rndDec 4 0, .rndDec 3 0, .rndDec 2 0, .rndDec 1 0, .rndDec 0 0] s
      = .next (s.setBlk (passDec s s.blk)) := by
  rw [execSeq_block hs (by decide), passDec_eq_foldl]
  simp only [List.foldl, blockAfter_rndDec, roundDec_setBlk, State.setBlk_blk]

/-- R161: a decode round with the same operands undoes an encode round. -/
theorem execSeq_rndEnc_rndDec {s : State} (hs : s.keyed = true) (hinv : s.TablesInverse) (r : BoxIdx) (p : Pos) :
    execSeq [.rndEnc r p, .rndDec r p] s = .next s := by
  have hblk : ∀ i ∈ [Instr.rndEnc r p, .rndDec r p], writesBlk i = true := by simp [writesBlk]
  rw [execSeq_block hs hblk]
  simp only [List.foldl, blockAfter_rndEnc, blockAfter_rndDec, roundDec_setBlk, State.setBlk_blk,
    hinv.roundDec_roundEnc, State.setBlk_self]

/-! ### The obligations -/

/-- Settles O40: the round is the PBox after the stage, each as its own command. -/
theorem rndEncIsStageThenTransposition : Obligations.RndEncIsStageThenTransposition := by
  unfold Obligations.RndEncIsStageThenTransposition
  refine fun r p s => ⟨encode_rndEnc_toNat r p, fun hs => ?_, exec_unkeyed rfl⟩
  have hm : (s.setBlk (subEncBlock s.se r s.blk)).keyed = true := hs
  exact ⟨_, _, exec_subEnc hs r, exec_pbEnc hm p, exec_rndEnc hs r p, onlyBlk_setBlk s _⟩

/-- Settles O41: the round is the inverse stage after the inverse PBox, each as its own command. -/
theorem rndDecIsTranspositionThenStage : Obligations.RndDecIsTranspositionThenStage := by
  unfold Obligations.RndDecIsTranspositionThenStage
  refine fun r p s => ⟨encode_rndDec_toNat r p, fun hs => ?_, fun hs hinv => execSeq_rndEnc_rndDec hs hinv r p,
    exec_unkeyed rfl⟩
  have hm : (s.setBlk (pboxDec s.pd p s.blk)).keyed = true := hs
  exact ⟨_, _, exec_pbDec hs p, exec_subDec hm r, exec_rndDec hs r p, onlyBlk_setBlk s _⟩

/-- Settles O42: a pass is its rounds in sequence and reads the tables and the block alone; with identity tables its rounds
cancel in pairs. -/
theorem blkEncIsEightRoundsUp : Obligations.BlkEncIsEightRoundsUp := by
  unfold Obligations.BlkEncIsEightRoundsUp
  refine ⟨by decide, fun s => ⟨fun hs => ?_, exec_unkeyed rfl⟩⟩
  refine ⟨_, exec_blkEnc hs, onlyBlk_setBlk s _, execSeq_rndEnc_upward hs, fun u hu hse hpe hblk => ?_, fun hid => ?_⟩
  · exact ⟨_, exec_blkEnc hu, by rw [State.setBlk_blk, State.setBlk_blk, passEnc_congr hse hpe, hblk]⟩
  · rw [hid.passEnc_eq, State.setBlk_self]

/-- Settles O43: a pass is its rounds in sequence and reads the tables and the block alone. -/
theorem blkDecIsEightRoundsDown : Obligations.BlkDecIsEightRoundsDown := by
  unfold Obligations.BlkDecIsEightRoundsDown
  refine ⟨by decide, fun s => ⟨fun hs => ?_, exec_unkeyed rfl⟩⟩
  refine ⟨_, exec_blkDec hs, onlyBlk_setBlk s _, execSeq_rndDec_downward hs, fun u hu hse hsd hpd hblk => ?_⟩
  exact ⟨_, exec_blkDec hu, by rw [State.setBlk_blk, State.setBlk_blk, passDec_congr hse hsd hpd, hblk]⟩

/-- Settles O45: each pass undoes the other round by round, and neither reads `SEED`. -/
theorem blockPassesUndoEachOther : Obligations.BlockPassesUndoEachOther := by
  unfold Obligations.BlockPassesUndoEachOther
  refine fun s hs hinv sd => ⟨⟨_, exec_blkEnc hs, ?_⟩, ⟨_, exec_blkDec hs, ?_⟩⟩
  · have hk : ((s.setBlk (passEnc s s.blk)).setSeed sd).keyed = true := hs
    rw [exec_blkDec hk, passDec_setSeed, passDec_setBlk, State.setSeed_blk, State.setBlk_blk,
      (hinv.tables hs).passDec_passEnc]
    rfl
  · have hk : ((s.setBlk (passDec s s.blk)).setSeed sd).keyed = true := hs
    rw [exec_blkEnc hk, passEnc_setSeed, passEnc_setBlk, State.setSeed_blk, State.setBlk_blk,
      (hinv.tables hs).passEnc_passDec]
    rfl

end Sys2Proof.Machine
end

section
/-! PROOFS. `SEED` is inert (spec/43_spn.md R166): no command reads it, and only `BUILD` writes it. -/

namespace Sys2Proof.Machine

@[simp] theorem blockAfter_setSeed (i : Instr) (s : State) (sd : Block) :
    blockAfter i (s.setSeed sd) = blockAfter i s := by
  cases i <;> rfl

@[simp] theorem resultAfter_setSeed (i : Instr) (s : State) (sd : Block) :
    resultAfter i (s.setSeed sd) = resultAfter i s := by
  cases i <;> rfl

@[simp] theorem construct_setSeed (s : State) (sd : Block) : construct (s.setSeed sd) = construct s := rfl

theorem afterCommand_setSeed {i : Instr} (hi : i ≠ .build) (s : State) (sd : Block) :
    afterCommand i (s.setSeed sd) = (afterCommand i s).setSeed sd := by
  simp only [afterCommand, if_neg hi, State.setSeed_keyed, blockAfter_setSeed, resultAfter_setSeed]
  split
  · rfl
  · split <;> rfl

theorem afterCommand_seed (i : Instr) (s : State) :
    (afterCommand i s).seed = if i = .build then zero256 else s.seed := by
  unfold afterCommand
  split_ifs <;> rfl

/-- Settles O46: read off `afterCommand`, the one expression for every command's next state. -/
theorem seedIsInert : Obligations.SeedIsInert := by
  unfold Obligations.SeedIsInert
  refine ⟨fun i s sd hi => ?_, fun s sd => ?_, fun i s t ht => ?_⟩
  · rw [exec_eq, exec_eq, afterCommand_setSeed hi]
    rfl
  · rw [exec_build, exec_build, construct_setSeed]
  · rw [exec_eq] at ht
    rw [← Host.Outcome.next.inj ht, afterCommand_seed]

end Sys2Proof.Machine
end

section
/-! PROOFS. `CLRERR` (spec/44_system.md R182): the command is a write of 0 to `ERR`, and what such a write leaves. -/

namespace Sys2Proof.Machine

theorem exec_clrErr (s : State) : exec .clrErr s = .next (s.setErr 0) := rfl

theorem State.setErr_self (s : State) : s.setErr s.err = s := rfl

theorem onlyErr_setErr (s : State) (e : BitVec 4) : OnlyErr s (s.setErr e) :=
  ⟨rfl, fun _ => rfl⟩

theorem readStatus_setErr (s : State) (e : BitVec 4) : readStatus (s.setErr e) = statusWord s.keyed e := rfl

/-- R221: with no error pending, a rejection leaves its own code in `ERR`. -/
theorem rejectedState_of_err_zero {s : State} (h : s.err = 0) (e : BitVec 4) : rejectedState e s = s.setErr e :=
  congrArg s.setErr (if_pos h)

/-- Settles O51: `CLRERR` is a write of 0 to `ERR`, which undoes a rejection in `STATUS`. -/
theorem clrErrClearsOnlyErr : Obligations.ClrErrClearsOnlyErr := by
  unfold Obligations.ClrErrClearsOnlyErr
  refine ⟨by decide, fun s => ⟨_, exec_clrErr s, rfl, onlyErr_setErr s 0, fun herr => ?_⟩, fun s hs herr => ?_⟩
  · rw [← herr, State.setErr_self]
  · refine ⟨_, _, exec_unkeyed rfl hs, ?_, exec_clrErr _, ?_⟩
    · rw [rejectedState_of_err_zero herr, readStatus_setErr, hs]
      decide
    · have hkeyed : (rejectedState 2 s).keyed = false := hs
      rw [readStatus_setErr, hkeyed]
      decide

end Sys2Proof.Machine
end

section
/-! PROOFS. Key expansion (spec/45_host_procedures.md R192), and the byte sequences the host procedures work on. -/

namespace Sys2Proof.Machine

theorem allBytes_iff {l : List Nat} : allBytes l = true ↔ ∀ x ∈ l, x ≤ 255 := by
  simp [allBytes]

theorem plainOk_iff {l : List Nat} : plainOk l = true ↔ l ≠ [] ∧ ∀ x ∈ l, x ≤ 255 := by
  simp [plainOk, allBytes_iff]

/-- A code read from a byte sequence, inside it or past its end, fits a byte. -/
theorem getD_lt_of_bytes {l : List Nat} (hl : ∀ x ∈ l, x ≤ 255) (i : Nat) : l.getD i 0 < 2 ^ 8 := by
  by_cases hi : i < l.length
  · rw [List.getD_eq_getElem l 0 hi]
    exact Nat.lt_succ_of_le (hl _ (List.getElem_mem hi))
  · rw [List.getD_eq_default l 0 (Nat.le_of_not_lt hi)]
    decide

/-- Settles O54: the refusals are the two tests at the head of the procedure, and a code up to 255 is its own byte. -/
theorem expandKeyRepeatsThePassword : Obligations.ExpandKeyRepeatsThePassword := by
  unfold Obligations.ExpandKeyRepeatsThePassword
  refine ⟨fun c hc => ?_, fun c hne hbytes => ?_⟩
  · unfold expandKey
    obtain rfl | ⟨x, hx, hlarge⟩ := hc
    · rfl
    · have hnot : allBytes c ≠ true := fun h => Nat.not_lt.2 (allBytes_iff.1 h x hx) hlarge
      simp [hnot]
  · have hlen : ¬ c.length = 0 := fun h => hne (List.eq_nil_of_length_eq_zero h)
    have hall : ¬ (!allBytes c) = true := by simp [allBytes_iff.2 hbytes]
    refine ⟨_, by rw [expandKey, if_neg hlen, if_neg hall], fun j hj => ⟨fun hshort => ?_, fun hlong => ?_⟩⟩
    · rw [getElem_tabulate, if_pos hshort, BitVec.toNat_ofNat, Nat.mod_eq_of_lt (getD_lt_of_bytes hbytes _)]
    · rw [getElem_tabulate, if_neg (Nat.not_lt.2 hlong), BitVec.toNat_ofNat,
        Nat.mod_eq_of_lt (getD_lt_of_bytes hbytes _)]

end Sys2Proof.Machine
end

section
/-! PROOFS. The three windows as the host uses them (spec/20_memory.md R51, spec/30_encoding.md R89): what the accesses of
`LDBLK`, `LDSEED`, `LDKEY` and `RDBLK` do, and the write of a command's word. -/

namespace Sys2Proof

/-- R84, R85: the decoder reads back the command a word was made of. -/
theorem decode_encode (i : Instr) : decode (encode i) = .ok i := by
  rw [encode, decode_commandWord]
  cases i with
  | build | blkEnc | blkDec | clrErr => rfl
  | subEnc r | subDec r => rfl
  | pbEnc p | pbDec p => rfl
  | rndEnc r p | rndDec r p => rfl
  | sbEnc k x | sbDec k x =>
    obtain ⟨hhigh, hbyte⟩ := argument_parts 0 x
    have harg : argHigh (byteArg x) = 0 ∧ argByte (byteArg x) = x := ⟨hhigh, hbyte⟩
    simp [decodeOp, Instr.mnemonic, Mnemonic.opcode, Instr.indexField, Instr.argument, decodeKB, harg.1, harg.2]

end Sys2Proof

namespace Sys2Proof.Machine

/-! ### A window and its accesses -/

/-- A window of the register map (R51): its first offset, the array it shows, and what one access of it does (R53, R55). -/
structure Window (n : Nat) where
  base : Nat
  get : State → Vector Byte n
  set : State → Vector Byte n → State
  base_ne_zero : base ≠ 0
  base_aligned : base % 4 = 0
  set_get : ∀ s, set s (get s) = s
  get_setResponse : ∀ s r, get (s.setResponse r) = get s
  get_set : ∀ s a, get (set s a) = a
  set_setResponse : ∀ s r a, set (s.setResponse r) a = (set s a).setResponse r
  set_set : ∀ s a b, set (set s a) b = set s b
  write_word : ∀ s j v (h : 4 * j + 3 < n), windowWrite s (base + 4 * j) v = some (set s (putWord (get s) j v h))
  read_word : ∀ s j (h : 4 * j + 3 < n), memRead s (base + 4 * j) 4 = some (wordOf (get s) j h)

/-- A write to the `BLK` window at word `j` (R55). -/
theorem windowWrite_blkWindow (s : State) (j : Nat) (v : Word) (hj : 4 * j + 3 < 256) :
    windowWrite s (0x0100 + 4 * j) v = some (s.setBlk (putWord s.blk j v hj)) := by
  have hblk : 0x0100 ≤ 0x0100 + 4 * j ∧ 0x0100 + 4 * j ≤ 0x01FC := by omega
  have hword : (0x0100 + 4 * j - 0x0100) / 4 = j := by omega
  rw [windowWrite, dif_pos hblk]
  simp only [hword]

/-- A write to the `SEED` window at word `j` (R55). -/
theorem windowWrite_seedWindow (s : State) (j : Nat) (v : Word) (hj : 4 * j + 3 < 256) :
    windowWrite s (0x0200 + 4 * j) v = some (s.setSeed (putWord s.seed j v hj)) := by
  have hseed : 0x0200 ≤ 0x0200 + 4 * j ∧ 0x0200 + 4 * j ≤ 0x02FC := by omega
  have hword : (0x0200 + 4 * j - 0x0200) / 4 = j := by omega
  rw [windowWrite, dif_neg (by omega), dif_pos hseed]
  simp only [hword]

/-- A write to the `KEY` window at word `j` (R55). -/
theorem windowWrite_keyWindow (s : State) (j : Nat) (v : Word) (hj : 4 * j + 3 < 4096) :
    windowWrite s (0x1000 + 4 * j) v = some (s.setKey (putWord s.key j v hj)) := by
  have hkey : 0x1000 ≤ 0x1000 + 4 * j ∧ 0x1000 + 4 * j ≤ 0x1FFC := by omega
  have hword : (0x1000 + 4 * j - 0x1000) / 4 = j := by omega
  rw [windowWrite, dif_neg (by omega), dif_neg (by omega), dif_pos hkey]
  simp only [hword]

/-- The window onto `BLK` (R51). -/
def blkWindow : Window 256 where
  base := Config.blkBase
  get := State.blk
  set := State.setBlk
  base_ne_zero := by decide
  base_aligned := by decide
  set_get _ := rfl
  get_setResponse _ _ := rfl
  get_set _ _ := rfl
  set_setResponse _ _ _ := rfl
  set_set _ _ _ := rfl
  write_word := windowWrite_blkWindow
  read_word := memRead_blkWindow

/-- The window onto `SEED` (R51). -/
def seedWindow : Window 256 where
  base := Config.seedBase
  get := State.seed
  set := State.setSeed
  base_ne_zero := by decide
  base_aligned := by decide
  set_get _ := rfl
  get_setResponse _ _ := rfl
  get_set _ _ := rfl
  set_setResponse _ _ _ := rfl
  set_set _ _ _ := rfl
  write_word := windowWrite_seedWindow
  read_word := memRead_seedWindow

/-- The window onto `KEY` (R51). -/
def keyWindow : Window 4096 where
  base := Config.keyBase
  get := State.key
  set := State.setKey
  base_ne_zero := by decide
  base_aligned := by decide
  set_get _ := rfl
  get_setResponse _ _ := rfl
  get_set _ _ := rfl
  set_setResponse _ _ _ := rfl
  set_set _ _ _ := rfl
  write_word := windowWrite_keyWindow
  read_word := memRead_keyWindow

/-! ### Word by word through a whole array -/

theorem word_end_lt {m : Nat} (j : Fin m) : 4 * j.val + 3 < 4 * m := by omega

/-- Array `b` after the words of `a` at the indices of `l` were put into it, in order. -/
def putWords {m : Nat} (a b : Vector Byte (4 * m)) (l : List (Fin m)) : Vector Byte (4 * m) :=
  l.foldl (fun b (j : Fin m) => putWord b j (wordOf a j (word_end_lt j)) (word_end_lt j)) b

/-- An element is the source's when its word was put, and as before when it was not. -/
theorem getElem_putWords {m : Nat} (a b : Vector Byte (4 * m)) (l : List (Fin m)) (i : Nat) (hi : i < 4 * m) :
    (putWords a b l)[i] = if ⟨i / 4, by omega⟩ ∈ l then a[i] else b[i] := by
  induction l generalizing b with
  | nil => simp [putWords]
  | cons j l ih =>
    have hput : (putWord b j (wordOf a j (word_end_lt j)) (word_end_lt j))[i] = if i / 4 = j.val then a[i] else b[i] := by
      rw [getElem_putWord]
      split_ifs with hj
      · obtain ⟨j, hlt⟩ := j
        subst hj
        exact wordOf_byte_of_index a i hi _
      · rfl
    rw [putWords, List.foldl_cons, ← putWords, ih, hput]
    have hmem : (⟨i / 4, by omega⟩ : Fin m) = j ↔ i / 4 = j.val := Fin.ext_iff
    simp only [List.mem_cons, hmem]
    by_cases hj : i / 4 = j.val <;> simp [hj]

theorem putWords_finRange {m : Nat} (a b : Vector Byte (4 * m)) : putWords a b (List.finRange m) = a :=
  Vector.ext fun i hi => by rw [getElem_putWords, if_pos (List.mem_finRange _)]

namespace Window
variable {m : Nat} (W : Window (4 * m))

/-- The write of word `j` of an array to the window. -/
def storeWord (a : Vector Byte (4 * m)) (j : Fin m) : HostEvent := .write (W.base + 4 * j) 4 (wordOf a j (word_end_lt j))

theorem issue_storeWord (a : Vector Byte (4 * m)) (j : Fin m) (s : State) :
    issue (W.storeWord a j) s =
      .ok ((W.set s (putWord (W.get s) j (wordOf a j (word_end_lt j)) (word_end_lt j))).setResponse .ok) := by
  have h0 := W.base_ne_zero
  have h4 := W.base_aligned
  exact issue_windowWrite (by omega) (by omega) (W.write_word s j _ _)

/-- Writes of some words of an array, the first of which has taken place: each further one goes into the array. -/
theorem issueAll_storeWords (a b : Vector Byte (4 * m)) (l : List (Fin m)) (s : State) :
    issueAll (l.map (W.storeWord a)) ((W.set s b).setResponse .ok) =
      .ok ((W.set s (putWords a b l)).setResponse .ok) := by
  induction l generalizing b with
  | nil => rfl
  | cons j l ih =>
    rw [List.map_cons, issueAll, issue_storeWord]
    simp only [W.get_setResponse, W.get_set, W.set_setResponse, W.set_set]
    exact ih _

/-- Writes of all words of an array leave that array in the window and change nothing else (R89). -/
theorem issueAll_store [NeZero m] (a : Vector Byte (4 * m)) (s : State) :
    issueAll (List.ofFn (W.storeWord a)) s = .ok ((W.set s a).setResponse .ok) := by
  obtain ⟨j, l, hl⟩ := List.exists_cons_of_ne_nil (l := List.finRange m) (by simp [NeZero.ne m])
  rw [List.ofFn_eq_map, hl, List.map_cons, issueAll, issue_storeWord]
  have hall := putWords_finRange a (W.get s)
  rw [hl, putWords, List.foldl_cons, ← putWords] at hall
  exact (W.issueAll_storeWords a _ l s).trans (by rw [hall])

/-- Reads of some words of the window return them and leave the state but for the response (R55). -/
theorem readAll_words (l : List (Fin m)) (s : State) : ∃ r,
    readAll (l.map fun j : Fin m => .read (W.base + 4 * j) 4) s =
      .ok (l.map fun j : Fin m => wordOf (W.get s) j (word_end_lt j), s.setResponse r) := by
  induction l generalizing s with
  | nil => exact ⟨s.response, rfl⟩
  | cons j l ih =>
    have hread := issue_read (W.read_word s j (word_end_lt j))
    obtain ⟨r, hr⟩ := ih (s.setResponse (.data (wordOf (W.get s) j (word_end_lt j))))
    refine ⟨r, ?_⟩
    simp only [W.get_setResponse] at hr
    simp only [List.map_cons, readAll, hread, hr, State.setResponse_response]
    rfl

end Window

/-! ### The pseudo-instructions (R89) -/

theorem issueAll_ldBlk (a : Block) (s : State) :
    issueAll (ScriptLine.events (.ldBlk a)) s = .ok ((s.setBlk a).setResponse .ok) :=
  Window.issueAll_store (m := 64) blkWindow a s

theorem issueAll_ldSeed (a : Block) (s : State) :
    issueAll (ScriptLine.events (.ldSeed a)) s = .ok ((s.setSeed a).setResponse .ok) :=
  Window.issueAll_store (m := 64) seedWindow a s

theorem issueAll_ldKey (a : Key) (s : State) :
    issueAll (ScriptLine.events (.ldKey a)) s = .ok ((s.setKey a).setResponse .ok) :=
  Window.issueAll_store (m := 1024) keyWindow a s

/-- A block is unpacked from its own 64 words (R53, R89). -/
theorem unpackBlock_words (b : Block) :
    unpackBlock ((List.finRange 64).map fun j : Fin 64 => wordOf b j (word_end_lt j)) = b := by
  refine Vector.ext fun i hi => ?_
  have hword : i / 4 < 64 := by omega
  rw [unpackBlock, getElem_tabulate]
  simp only [List.getD_eq_getElem?_getD, List.getElem?_map]
  rw [List.getElem?_eq_getElem (by simpa using hword)]
  simp only [List.getElem_finRange, Option.map_some, Option.getD_some]
  exact wordOf_byte_of_index b i hi _

theorem rdBlk_eq (s : State) : ∃ r, rdBlk s = .ok (s.blk, s.setResponse r) := by
  obtain ⟨r, hr⟩ := Window.readAll_words (m := 64) blkWindow (List.finRange 64) s
  rw [← List.ofFn_eq_map] at hr
  have hr' : readAll (ScriptLine.events .rdBlk) s =
    .ok ((List.finRange 64).map fun j : Fin 64 => wordOf s.blk j (word_end_lt j), s.setResponse r) := hr
  exact ⟨r, by rw [rdBlk, hr']; simp only [unpackBlock_words]⟩

/-- A command's line is that command, answered normally (R180). -/
theorem issueAll_command (i : Instr) (s : State) :
    issueAll (ScriptLine.events (.command i)) s = .ok (afterCommand i (s.setResponse .ok)) := by
  have h := issue_command (s := s) (decode_encode i)
  rw [ScriptLine.events, commandWrite, issueAll, Config.cmdOffset, h]
  rfl

/-- A script is its lines in order (R89). -/
theorem issueAll_scriptEvents_cons {x : ScriptLine} {s t : State} (h : issueAll x.events s = .ok t)
    (l : List ScriptLine) : issueAll (scriptEvents (x :: l)) s = issueAll (scriptEvents l) t := by
  rw [scriptEvents, List.flatMap_cons, issueAll_append, h]
  rfl

end Sys2Proof.Machine
end

section
/-! PROOFS. Construction (spec/45_host_procedures.md R193): the state it leaves, and that `BUILD` leaves inverse tables. -/

namespace Sys2Proof.Machine

/-- R32 after `BUILD`: each table pair is the builder's, whose second table inverts the first (R103). -/
theorem construct_tablesInverse (s : State) : (construct s).TablesInverse where
  sdSe k x := by
    rw [construct_sboxDec, construct_sboxEnc]
    exact congrArg BitVec.ofFin (buildPerm_snd_fst _ _)
  seSd k y := by
    rw [construct_sboxEnc, construct_sboxDec]
    exact congrArg BitVec.ofFin (buildPerm_fst_snd _ _)
  pdPe p := by
    rw [construct_pd, construct_pe]
    exact congrArg BitVec.ofFin (buildPerm_snd_fst _ _)
  pePd q := by
    rw [construct_pe, construct_pd]
    exact congrArg BitVec.ofFin (buildPerm_fst_snd _ _)

theorem constructCipher_eq {pw : Codes} {key : Key} (h : expandKey pw = .ok key) (s : State) :
    constructCipher pw s = .ok (construct ((s.setKey key).setResponse .ok)) := by
  simp only [constructCipher, h]
  rw [issueAll_scriptEvents_cons (issueAll_ldKey key s), issueAll_scriptEvents_cons (issueAll_command .build _)]
  rfl

/-- Settles O55: construction leaves what `BUILD` leaves of the state with the key loaded. -/
theorem constructKeysTheEngine : Obligations.ConstructKeysTheEngine := by
  unfold Obligations.ConstructKeysTheEngine
  exact fun pw key s h => ⟨_, constructCipher_eq h s, exec_build _, construct_key _, construct_keyed _, construct_seed _⟩

end Sys2Proof.Machine
end

section
/-! PROOFS. A byte sequence coded block by block (spec/45_host_procedures.md R194, R195), apart from the machine: which
bytes come out, what of the input they depend on, and how a second coding undoes the first. -/

namespace Sys2Proof.Machine

/-! ### The bytes of a block -/

@[simp] theorem length_blockBytes (b : Block) : (blockBytes b).length = 256 := by
  simp [blockBytes]

theorem getD_blockBytes (b : Block) {i : Nat} (hi : i < 256) : (blockBytes b).getD i 0 = b[i].toNat := by
  rw [List.getD_eq_getElem _ _ (by simpa using hi)]
  simp [blockBytes]

theorem le_of_mem_blockBytes {b : Block} {x : Nat} (hx : x ∈ blockBytes b) : x ≤ 255 := by
  obtain ⟨y, -, rfl⟩ := List.mem_map.1 hx
  have := y.isLt
  omega

theorem getElem_blockOf (l : List Nat) (k : Nat) {i : Nat} (hi : i < 256) :
    (blockOf l k)[i] = BitVec.ofNat 8 (l.getD (256 * k + i) 0) :=
  getElem_tabulate _ i hi

/-- A block inside a sequence does not depend on what is appended. -/
theorem blockOf_append_left (l l' : List Nat) {k : Nat} (hk : 256 * (k + 1) ≤ l.length) :
    blockOf (l ++ l') k = blockOf l k := by
  refine Vector.ext fun i hi => ?_
  rw [getElem_blockOf _ _ hi, getElem_blockOf _ _ hi, List.getD_append _ _ _ _ (by omega)]

/-! ### Coding blocks -/

/-- `n` blocks of a byte sequence from block `k` on, each put through `f`, one after the other. -/
def codedBytes (f : Block → Block) (l : List Nat) : Nat → Nat → List Nat
  | 0, _ => []
  | n + 1, k => blockBytes (f (blockOf l k)) ++ codedBytes f l n (k + 1)

@[simp] theorem length_codedBytes (f : Block → Block) (l : List Nat) (n k : Nat) :
    (codedBytes f l n k).length = 256 * n := by
  induction n generalizing k with
  | zero => rfl
  | succ n ih =>
    rw [codedBytes, List.length_append, length_blockBytes, ih]
    omega

theorem le_of_mem_codedBytes {f : Block → Block} {l : List Nat} {n k x : Nat} (hx : x ∈ codedBytes f l n k) :
    x ≤ 255 := by
  induction n generalizing k with
  | zero => cases hx
  | succ n ih => exact (List.mem_append.1 hx).elim le_of_mem_blockBytes ih

theorem getD_codedBytes (f : Block → Block) (l : List Nat) {n j i : Nat} (hj : j < n) (hi : i < 256) (k : Nat) :
    (codedBytes f l n k).getD (256 * j + i) 0 = (f (blockOf l (k + j)))[i].toNat := by
  induction n generalizing j k with
  | zero => omega
  | succ n ih =>
    rw [codedBytes]
    cases j with
    | zero =>
      rw [List.getD_append _ _ _ _ (by rw [length_blockBytes]; omega), Nat.mul_zero, Nat.zero_add,
        getD_blockBytes _ hi]
      rfl
    | succ j =>
      have hrest : 256 * (j + 1) + i - 256 = 256 * j + i := by omega
      rw [List.getD_append_right _ _ _ _ (by rw [length_blockBytes]; omega), length_blockBytes, hrest,
        ih (by omega) (k + 1)]
      simp only [Nat.add_assoc, Nat.add_comm 1 j]

theorem blockOf_codedBytes (f : Block → Block) (l : List Nat) {n j : Nat} (hj : j < n) :
    blockOf (codedBytes f l n 0) j = f (blockOf l j) := by
  refine Vector.ext fun i hi => ?_
  rw [getElem_blockOf _ _ hi, getD_codedBytes f l hj hi 0, BitVec.ofNat_toNat, BitVec.setWidth_eq]
  simp only [Nat.zero_add]

theorem codedBytes_congr {f f' : Block → Block} {l l' : List Nat} {n k : Nat}
    (h : ∀ j < n, f (blockOf l (k + j)) = f' (blockOf l' (k + j))) : codedBytes f l n k = codedBytes f' l' n k := by
  induction n generalizing k with
  | zero => rfl
  | succ n ih =>
    have hhead : f (blockOf l k) = f' (blockOf l' k) := h 0 (Nat.succ_pos n)
    rw [codedBytes, codedBytes, hhead, ih fun j hj => ?_]
    rw [Nat.add_assoc, Nat.add_comm 1 j]
    exact h (j + 1) (Nat.succ_lt_succ hj)

theorem take_codedBytes (f : Block → Block) (l : List Nat) {m n : Nat} (h : m ≤ n) (k : Nat) :
    (codedBytes f l n k).take (256 * m) = codedBytes f l m k := by
  induction m generalizing n k with
  | zero => rfl
  | succ m ih =>
    obtain ⟨n, rfl⟩ := Nat.exists_eq_add_of_le' h
    have hhead : (blockBytes (f (blockOf l k))).length ≤ 256 * (m + 1) := by rw [length_blockBytes]; omega
    have hrest : 256 * (m + 1) - 256 = 256 * m := by omega
    rw [← Nat.add_assoc, codedBytes, codedBytes, List.take_append, List.take_of_length_le hhead, length_blockBytes,
      hrest, ih (by omega)]

/-- Cutting into blocks and concatenating loses nothing of a sequence of whole blocks of bytes. -/
theorem codedBytes_id {l : List Nat} {n : Nat} (hlen : l.length = 256 * n) (hl : ∀ x ∈ l, x ≤ 255) :
    codedBytes id l n 0 = l := by
  refine List.ext_getElem (by rw [length_codedBytes, hlen]) fun x hx hx' => ?_
  have hi : x % 256 < 256 := Nat.mod_lt x (by decide)
  have hcoded := getD_codedBytes id l (n := n) (j := x / 256) (by omega) hi 0
  rw [id_eq, getElem_blockOf _ _ hi, Nat.zero_add, Nat.div_add_mod, BitVec.toNat_ofNat,
    Nat.mod_eq_of_lt (getD_lt_of_bytes hl x)] at hcoded
  rwa [List.getD_eq_getElem _ _ hx, List.getD_eq_getElem _ _ hx'] at hcoded

/-- A block transformation that undoes another undoes it on sequences of whole blocks. -/
theorem codedBytes_codedBytes {f g : Block → Block} (hgf : ∀ b, g (f b) = b) {l : List Nat} {n : Nat}
    (hlen : l.length = 256 * n) (hl : ∀ x ∈ l, x ≤ 255) : codedBytes g (codedBytes f l n 0) n 0 = l := by
  calc codedBytes g (codedBytes f l n 0) n 0 = codedBytes id l n 0 :=
        codedBytes_congr fun j hj => by rw [Nat.zero_add, blockOf_codedBytes f l hj, hgf, id_eq]
    _ = l := codedBytes_id hlen hl

/-! ### Filler (R194) -/

theorem rand_mem (src : RandSource) (call : Nat) {lo hi : Nat} (h : lo ≤ hi) :
    lo ≤ rand src call lo hi ∧ rand src call lo hi ≤ hi := by
  have := Nat.mod_lt (src call) (show 0 < hi - lo + 1 by omega)
  unfold rand
  omega

/-- The plaintext with its filler (R194). -/
def padded (src : RandSource) (call : Nat) (plain : List Nat) : List Nat := plain ++ filler src call plain.length

/-- How many blocks `n` bytes fill, the last of them perhaps in part. -/
def blockCount (n : Nat) : Nat := (n + 255) / 256

theorem length_filler (src : RandSource) (call n : Nat) : (filler src call n).length = (256 - n % 256) % 256 := by
  simp [filler]

theorem filler_eq_nil (src : RandSource) (call : Nat) {n : Nat} (h : n % 256 = 0) : filler src call n = [] :=
  List.eq_nil_of_length_eq_zero (by rw [length_filler, h])

theorem length_padded (src : RandSource) (call : Nat) (plain : List Nat) :
    (padded src call plain).length = 256 * blockCount plain.length := by
  rw [padded, List.length_append, length_filler, blockCount]
  omega

theorem padded_bytes (src : RandSource) (call : Nat) {plain : List Nat} (h : ∀ x ∈ plain, x ≤ 255) :
    ∀ x ∈ padded src call plain, x ≤ 255 := by
  intro x hx
  obtain hx | hx := List.mem_append.1 hx
  · exact h x hx
  · obtain ⟨i, -, rfl⟩ := List.mem_map.1 hx
    exact (rand_mem src (call + i) (by decide)).2

/-! ### The message of a stream container (R194) -/

/-- The message `StreamEncode` makes with the block transformation `f`. -/
def codedMessage (f : Block → Block) (src : RandSource) (call : Nat) (plain : List Nat) : List Nat :=
  codedBytes f (padded src call plain) (blockCount plain.length) 0

theorem length_codedMessage (f : Block → Block) (src : RandSource) (call : Nat) (plain : List Nat) :
    (codedMessage f src call plain).length = 256 * blockCount plain.length :=
  length_codedBytes _ _ _ _

theorem container_wellFormed (f : Block → Block) (src : RandSource) (call : Nat) (plain : List Nat) :
    NetContainer.wellFormed ⟨plain.length, codedMessage f src call plain⟩ = true := by
  have hlen := length_codedMessage f src call plain
  have hbytes := allBytes_iff.2 fun x (hx : x ∈ codedMessage f src call plain) => le_of_mem_codedBytes hx
  simp only [NetContainer.wellFormed, hbytes, hlen, blockCount, Bool.and_true, Bool.and_eq_true, decide_eq_true_iff]
  omega

/-- Undoing the transformation block by block and dropping the filler gives the plaintext back. -/
theorem take_decoded_codedMessage {f g : Block → Block} (hgf : ∀ b, g (f b) = b) (src : RandSource) (call : Nat)
    {plain : List Nat} (h : ∀ x ∈ plain, x ≤ 255) :
    (codedBytes g (codedMessage f src call plain) (blockCount plain.length) 0).take plain.length = plain := by
  rw [codedMessage, codedBytes_codedBytes hgf (length_padded _ _ _) (padded_bytes _ _ h), padded,
    List.take_left]

/-- The blocks without filler are the same whatever was drawn. -/
theorem take_codedMessage (f : Block → Block) (src src' : RandSource) (call call' : Nat) (plain : List Nat) :
    (codedMessage f src call plain).take (256 * (plain.length / 256)) =
      (codedMessage f src' call' plain).take (256 * (plain.length / 256)) := by
  have hle : plain.length / 256 ≤ blockCount plain.length := by unfold blockCount; omega
  rw [codedMessage, codedMessage, take_codedBytes f _ hle, take_codedBytes f _ hle]
  refine codedBytes_congr fun j hj => ?_
  have hwhole : 256 * (0 + j + 1) ≤ plain.length := by omega
  rw [padded, padded, blockOf_append_left _ _ hwhole, blockOf_append_left _ _ hwhole]

theorem codedMessage_eq_of_filler_eq (f : Block → Block) {src src' : RandSource} {call call' : Nat} {plain : List Nat}
    (h : filler src call plain.length = filler src' call' plain.length) :
    codedMessage f src call plain = codedMessage f src' call' plain := by
  rw [codedMessage, codedMessage, padded, padded, h]

/-- Under a reversible transformation two messages of one plaintext are equal only with equal filler. -/
theorem codedMessage_eq_iff {f g : Block → Block} (hgf : ∀ b, g (f b) = b) {src src' : RandSource} {call call' : Nat}
    {plain : List Nat} (h : ∀ x ∈ plain, x ≤ 255) :
    codedMessage f src call plain = codedMessage f src' call' plain ↔
      filler src call plain.length = filler src' call' plain.length := by
  refine ⟨fun heq => ?_, codedMessage_eq_of_filler_eq f⟩
  have hpadded : padded src call plain = padded src' call' plain := by
    rw [← codedBytes_codedBytes hgf (length_padded src call plain) (padded_bytes src call h),
      ← codedBytes_codedBytes hgf (length_padded src' call' plain) (padded_bytes src' call' h)]
    exact congrArg (fun l => codedBytes g l (blockCount plain.length) 0) heq
  exact List.append_cancel_left hpadded

end Sys2Proof.Machine
end

section
/-! PROOFS. The stream layer and the text facade on a keyed engine (spec/45_host_procedures.md R194 to R199, R206): what each
procedure returns, and that it changes `BLK`, `SEED` and the last response at most. -/

namespace Sys2Proof.Machine

/-! ### The loop over blocks -/

theorem blockAfter_setResponse (i : Instr) (s : State) (r : BusResponse) :
    blockAfter i (s.setResponse r) = blockAfter i s := by
  cases i <;> rfl

theorem State.setResponse_setBlk (s : State) (r : BusResponse) (b : Block) :
    (s.setResponse r).setBlk b = (s.setBlk b).setResponse r := rfl

/-- One turn of the loop of R194 and R195 before its `RDBLK`: the command's block of the block loaded. -/
theorem issueAll_codeBlock {i : Instr} {s : State} (hi : writesBlk i = true) (hs : s.keyed = true) (a : Block) :
    issueAll (scriptEvents [.ldBlk a, .command i]) s =
      .ok ((s.setBlk (blockAfter i (s.setBlk a))).setResponse .ok) := by
  rw [issueAll_scriptEvents_cons (issueAll_ldBlk a s), issueAll_scriptEvents_cons (issueAll_command i _)]
  have hkeyed : (((s.setBlk a).setResponse .ok).setResponse .ok).keyed = true := hs
  rw [afterCommand_block hi hkeyed, blockAfter_setResponse, blockAfter_setResponse]
  rfl

/-- The loop puts every block through the command and changes `BLK` and the last response only. -/
theorem codeBlocks_eq {i : Instr} {s : State} (hi : writesBlk i = true) (hs : s.keyed = true) {f : Block → Block}
    (hf : ∀ a, blockAfter i (s.setBlk a) = f a) (l : List Nat) (n k : Nat) :
    ∃ b r, codeBlocks i l n k s = .ok (codedBytes f l n k, (s.setBlk b).setResponse r) := by
  induction n generalizing k s with
  | zero => exact ⟨s.blk, s.response, rfl⟩
  | succ n ih =>
    obtain ⟨r, hread⟩ := rdBlk_eq ((s.setBlk (f (blockOf l k))).setResponse .ok)
    have hf' (a : Block) :
        blockAfter i ((((s.setBlk (f (blockOf l k))).setResponse .ok).setResponse r).setBlk a) = f a := by
      rw [State.setResponse_setBlk, State.setResponse_setBlk, blockAfter_setResponse, blockAfter_setResponse,
        State.setBlk_setBlk, hf]
    obtain ⟨b, r', hrest⟩ := ih (s := ((s.setBlk (f (blockOf l k))).setResponse .ok).setResponse r) hs hf' (k + 1)
    refine ⟨b, r', ?_⟩
    simp only [codeBlocks, issueAll_codeBlock hi hs, hf, hread, hrest]
    rfl

/-! ### The stream layer (R194, R195) -/

theorem streamEncode_eq {s : State} (hs : s.keyed = true) (src : RandSource) (call : Nat) {plain : List Nat}
    (hplain : plainOk plain = true) :
    ∃ b r, streamEncode src call plain s =
      .ok (⟨plain.length, codedMessage (passEnc s) src call plain⟩, (s.setBlk b).setResponse r) := by
  have hcount : (padded src call plain).length / 256 = blockCount plain.length := by
    rw [length_padded, Nat.mul_div_cancel_left _ (by decide)]
  obtain ⟨b, r, hcode⟩ := codeBlocks_eq (i := .blkEnc) rfl hs (f := passEnc s) (fun _ => rfl)
    (padded src call plain) (blockCount plain.length) 0
  refine ⟨b, r, ?_⟩
  rw [← hcount, padded] at hcode
  simp only [streamEncode, hplain, Bool.not_true, Bool.false_eq_true, if_false, hcode, codedMessage, ← hcount, padded]

/-- Decoding a message that the inverse transformation made, on an engine whose decode pass undoes it (R206 (a)). -/
theorem streamDecode_codedMessage {s : State} (hs : s.keyed = true) {f : Block → Block}
    (hf : ∀ b, passDec s (f b) = b) (src : RandSource) (call : Nat) {plain : List Nat} (hplain : plainOk plain = true) :
    ∃ b r, streamDecode ⟨plain.length, codedMessage f src call plain⟩ s = .ok (plain, (s.setBlk b).setResponse r) := by
  have hcount : (codedMessage f src call plain).length / 256 = blockCount plain.length := by
    rw [length_codedMessage, Nat.mul_div_cancel_left _ (by decide)]
  obtain ⟨b, r, hcode⟩ := codeBlocks_eq (i := .blkDec) rfl hs (f := passDec s) (fun _ => rfl)
    (codedMessage f src call plain) (blockCount plain.length) 0
  refine ⟨b, r, ?_⟩
  simp only [streamDecode, container_wellFormed, Bool.not_true, Bool.false_eq_true, if_false, hcount, hcode,
    take_decoded_codedMessage hf src call (plainOk_iff.1 hplain).2]

/-! ### The text facade (R197 to R199) -/

/-- The seed field `EdocEncode` draws (R197). -/
def drawnSeed (src : RandSource) (call : Nat) : List Nat := (List.range 256).map fun j => rand src (call + j) 1 255

theorem seedOk_drawnSeed (src : RandSource) (call : Nat) : seedOk (drawnSeed src call) = true := by
  have hrange : ∀ x ∈ drawnSeed src call, 1 ≤ x ∧ x ≤ 255 := by
    intro x hx
    obtain ⟨j, -, rfl⟩ := List.mem_map.1 hx
    exact rand_mem src (call + j) (by decide)
  have hlen : (drawnSeed src call).length = 256 := by simp [drawnSeed]
  simpa [seedOk, hlen] using hrange

theorem issueAll_ldSeed_script (a : Block) (s : State) :
    issueAll (scriptEvents [.ldSeed a]) s = .ok ((s.setSeed a).setResponse .ok) := by
  rw [issueAll_scriptEvents_cons (issueAll_ldSeed a s)]
  rfl

theorem edocEncode_eq {s : State} (hs : s.keyed = true) (src : RandSource) (call : Nat) {text : Codes}
    (htext : plainOk text = true) :
    ∃ a b r, edocEncode src call text s =
      .ok (⟨drawnSeed src call, ⟨text.length, codedMessage (passEnc s) src (call + 256) text⟩⟩,
        ((s.setSeed a).setBlk b).setResponse r) := by
  have hs' : ((s.setSeed (seedBlock (drawnSeed src call))).setResponse .ok).keyed = true := hs
  obtain ⟨b, r, hstream⟩ := streamEncode_eq hs' src (call + 256) htext
  refine ⟨seedBlock (drawnSeed src call), b, r, ?_⟩
  rw [drawnSeed] at hstream
  simp only [edocEncode, htext, Bool.not_true, Bool.false_eq_true, if_false, issueAll_ldSeed_script, hstream]
  rfl

/-- Any acceptable seed field serves to decode (R199). -/
theorem edocDecode_codedMessage {s : State} (hs : s.keyed = true) {f : Block → Block}
    (hf : ∀ b, passDec s (f b) = b) (src : RandSource) (call : Nat) {text : Codes} (htext : plainOk text = true)
    {seed : List Nat} (hseed : seedOk seed = true) :
    ∃ t, edocDecode ⟨seed, ⟨text.length, codedMessage f src call text⟩⟩ s = .ok (text, t) := by
  have hs' : ((s.setSeed (seedBlock seed)).setResponse .ok).keyed = true := hs
  obtain ⟨b, r, hstream⟩ := streamDecode_codedMessage hs' hf src call htext
  refine ⟨(((s.setSeed (seedBlock seed)).setResponse .ok).setBlk b).setResponse r, ?_⟩
  simp only [edocDecode, hseed, container_wellFormed, Bool.not_true, Bool.or_false, Bool.false_eq_true, if_false,
    issueAll_ldSeed_script, hstream]

/-! ### The four properties of the system (R206) -/

/-- R206 (a): the stream round trip. -/
theorem streamRoundTrip_eq {s : State} (hs : s.keyed = true) (hinv : s.TablesInverse) (src : RandSource) (call : Nat)
    {plain : List Nat} (hplain : plainOk plain = true) : ∃ t, streamRoundTrip src call plain s = .ok (plain, t) := by
  obtain ⟨b, r, henc⟩ := streamEncode_eq hs src call hplain
  have ht : ((s.setBlk b).setResponse r).keyed = true := hs
  obtain ⟨b', r', hdec⟩ := streamDecode_codedMessage ht hinv.passDec_passEnc src call hplain
  exact ⟨_, by rw [streamRoundTrip, henc]; exact hdec⟩

/-- R206 (b): the facade round trip on the engine that construction leaves. -/
theorem facadeRoundTrip_eq {pw text : Codes} {key : Key} (hkey : expandKey pw = .ok key) (htext : plainOk text = true)
    (src : RandSource) (call : Nat) (s : State) : ∃ t, facadeRoundTrip src call pw text s = .ok (text, t) := by
  have hinv := construct_tablesInverse ((s.setKey key).setResponse .ok)
  obtain ⟨a, b, r, henc⟩ := edocEncode_eq (construct_keyed ((s.setKey key).setResponse .ok)) src call htext
  have ht : ((((construct ((s.setKey key).setResponse .ok)).setSeed a).setBlk b).setResponse r).keyed = true := rfl
  obtain ⟨t, hdec⟩ := edocDecode_codedMessage ht hinv.passDec_passEnc src (call + 256) htext
    (seedOk_drawnSeed src call)
  exact ⟨t, by simp only [facadeRoundTrip, constructCipher_eq hkey, henc, hdec]⟩

/-- R206 (c): the second of two successive encodings works with the tables of the first. -/
theorem successiveEncodings_eq {s : State} (hs : s.keyed = true) (src src' : RandSource) (call call' : Nat)
    {text : Codes} (htext : plainOk text = true) :
    ∃ t, successiveEncodings src src' call call' text s =
      .ok (⟨drawnSeed src call, ⟨text.length, codedMessage (passEnc s) src (call + 256) text⟩⟩,
        ⟨drawnSeed src' call', ⟨text.length, codedMessage (passEnc s) src' (call' + 256) text⟩⟩, t) := by
  obtain ⟨a, b, r, henc⟩ := edocEncode_eq hs src call htext
  have ht : (((s.setSeed a).setBlk b).setResponse r).keyed = true := hs
  obtain ⟨a', b', r', henc'⟩ := edocEncode_eq ht src' call' htext
  exact ⟨_, by simp only [successiveEncodings, henc, henc']; rfl⟩

/-- Settles O59: an engine with inverse tables undoes the encode pass block by block; the blocks without filler do not see
the draws, and the pass is injective on the others. -/
theorem systemPropertiesHoldOfTheProcedures : Obligations.SystemPropertiesHoldOfTheProcedures := by
  unfold Obligations.SystemPropertiesHoldOfTheProcedures
  have hfacade : ∀ (src : RandSource) (call : Nat) (pw text : Codes) (s : State), pw ≠ [] → (∀ x ∈ pw, x ≤ 255) →
      text ≠ [] → (∀ x ∈ text, x ≤ 255) → ∃ t, facadeRoundTrip src call pw text s = .ok (text, t) := by
    intro src call pw text s hpw hpwBytes htext htextBytes
    obtain ⟨key, hkey, -⟩ := expandKeyRepeatsThePassword.2 pw hpw hpwBytes
    exact facadeRoundTrip_eq hkey (plainOk_iff.2 ⟨htext, htextBytes⟩) src call s
  refine ⟨fun src call plain s hne hbytes hs hinv => ?_, hfacade,
    fun src src' call call' text s hne hbytes hs hinv => ?_, fun src call s => ?_⟩
  · exact streamRoundTrip_eq hs (hinv.tables hs) src call (plainOk_iff.2 ⟨hne, hbytes⟩)
  · obtain ⟨t, ht⟩ := successiveEncodings_eq hs src src' call call' (plainOk_iff.2 ⟨hne, hbytes⟩)
    refine ⟨_, _, t, ht, take_codedMessage _ _ _ _ _ _, fun hwhole => ?_,
      codedMessage_eq_iff (hinv.tables hs).passDec_passEnc hbytes⟩
    exact codedMessage_eq_of_filler_eq _ (by rw [filler_eq_nil _ _ hwhole, filler_eq_nil _ _ hwhole])
  · exact hfacade src call scenarioPassword scenarioText s (by decide) (by decide) (by decide) (by decide)

end Sys2Proof.Machine
end

section
/-! PROOFS. The rejected command (spec/60_exceptions.md R221): the step that writes it to `CMD`, and what it leaves. -/

namespace Sys2Proof.Machine

/-- R180: the step that writes a command's word to `CMD` is that command. -/
theorem step_command {s : State} {rest : List HostEvent} {w : Word} {i : Instr} (hw : decode w = .ok i)
    (hp : s.pending = .write 0x0000 4 w :: rest) : step s = exec i ((s.setPending rest).setResponse .ok) := by
  have hexec : execute w (s.setPending rest) = exec i ((s.setPending rest).setResponse .ok) := by
    simp only [execute, hw]
  exact (step_cons hp).trans hexec

/-- R221: with an error pending, a rejection leaves that error in `ERR`. -/
theorem rejectedState_err_of_err_ne_zero {s : State} (h : s.err ≠ 0) (e : BitVec 4) : (rejectedState e s).err = s.err :=
  if_neg h

theorem onlyErr_rejectedState (e : BitVec 4) (s : State) : OnlyErr s (rejectedState e s) :=
  onlyErr_setErr s _

/-- R121, R221: both causes make the step a rejection, and the word alone says with which code. -/
theorem step_rejected {s : State} {rest : List HostEvent} {w : Word} (hp : s.pending = .write 0x0000 4 w :: rest)
    (hrej : (∃ e, decode w = .error e) ∨ ∃ i, decode w = .ok i ∧ needsTables i = true ∧ s.keyed = false) :
    ∃ code, step s = .next (rejectedState code ((s.setPending rest).setResponse .ok)) ∧
      ((∃ e, decode w = .error e) → code = 1) ∧ ((∃ i, decode w = .ok i) → code = 2) := by
  obtain ⟨e, hw⟩ | ⟨i, hw, hi, hs⟩ := hrej
  · exact ⟨1, step_illegalWord hw hp, fun _ => rfl, fun ⟨_, hj⟩ => nomatch hw.symm.trans hj⟩
  · exact ⟨2, (step_command hw hp).trans (exec_unkeyed hi hs), fun ⟨_, he⟩ => (nomatch hw.symm.trans he),
      fun _ => rfl⟩

/-- Settles O9: the step is a rejection of the state answered normally, which writes `ERR` if it held 0 and nothing else. -/
theorem rejectedCommandWritesOnlyErr : Obligations.RejectedCommandWritesOnlyErr := by
  unfold Obligations.RejectedCommandWritesOnlyErr
  refine ⟨fun s rest w hp hrej => ?_, fun i s => exec_unkeyed⟩
  obtain ⟨code, hstep, hill, hnotKeyed⟩ := step_rejected hp hrej
  obtain ⟨hfields, hbytes⟩ := onlyErr_rejectedState code ((s.setPending rest).setResponse .ok)
  have hfirst : s.err = 0 → (rejectedState code ((s.setPending rest).setResponse .ok)).err = code :=
    fun h => congrArg State.err (rejectedState_of_err_zero h code)
  refine ⟨_, hstep, hfields, fun h => ?_, fun h he => ?_, fun h hok => ?_, hbytes⟩
  · exact rejectedState_err_of_err_ne_zero (s := (s.setPending rest).setResponse .ok) h code
  · exact (hfirst h).trans (hill he)
  · exact (hfirst h).trans (hnotKeyed hok)

end Sys2Proof.Machine
end

section
/-! PROOFS. Commands, their words and their lines (spec/30_encoding.md): the decoder against the encoder and the opcode table
(R81 to R87), the assembler step against the lines of commands (R82, R84, R88). -/

namespace Sys2Proof

/-! ### Words -/

/-- R82, R84: the operand fields of a word under a mnemonic's opcode are those of the command it decodes to; a field the
format does not use is 0 in both. -/
theorem decodeOp_opcode_fields {m : Mnemonic} {k : BoxIdx} {arg : Pos} {i : Instr}
    (h : decodeOp m.opcode k arg = .ok i) : i.indexField = k ∧ i.argument = arg := by
  have hunused := (decodeOp_opcode_isOk m k arg).1 ⟨i, h⟩
  cases m with
  | build | blkEnc | blkDec | clrErr =>
    obtain ⟨hk, harg⟩ := hunused
    obtain rfl := decodeZ_eq_ok h
    exact ⟨hk.symm, harg.symm⟩
  | subEnc | subDec =>
    obtain rfl := decodeK_eq_ok h
    exact ⟨rfl, hunused.symm⟩
  | sbEnc | sbDec =>
    obtain rfl := decodeKB_eq_ok h
    exact ⟨rfl, byteArg_argByte arg hunused⟩
  | pbEnc | pbDec =>
    obtain rfl := decodeS_eq_ok h
    exact ⟨hunused.symm, rfl⟩
  | rndEnc | rndDec =>
    obtain rfl := Except.ok.inj h
    exact ⟨rfl, rfl⟩

/-- R85, R87: a word is the encoding of the command it decodes to. -/
theorem encode_of_decode {w : Word} {i : Instr} (h : decode w = .ok i) : encode i = w := by
  obtain ⟨hop, h27, h23, -⟩ := matches_of_decode h
  have hi : decodeOp i.mnemonic.opcode (kField w) (argField w) = .ok i := by
    rw [← hop, ← h, decode, if_neg (not_not.2 h27), if_neg (not_not.2 h23)]
  obtain ⟨hk, harg⟩ := decodeOp_opcode_fields hi
  rw [encode, hk, harg, ← hop, commandWord_fields w h27 h23]

/-- No word matches two mnemonics: they differ in the opcode. -/
theorem Mnemonic.Matches.eq {m m' : Mnemonic} {w : Word} (h : m.Matches w) (h' : m'.Matches w) : m = m' :=
  Mnemonic.opcode_injective (h.1.symm.trans h'.1)

theorem decode_mnemonic_iff (w : Word) (m : Mnemonic) : (∃ i, decode w = .ok i ∧ i.mnemonic = m) ↔ m.Matches w := by
  constructor
  · rintro ⟨i, hi, rfl⟩
    exact matches_of_decode hi
  · intro hm
    obtain ⟨i, hi⟩ := (decode_isOk_iff w).2 ⟨m, hm⟩
    exact ⟨i, hi, (matches_of_decode hi).eq hm⟩

theorem exists_row_accepts_iff (w : Word) (m : Mnemonic) :
    (∃ r ∈ opcodeTable, r.mnemonic = m ∧ r.accepts w = true) ↔ m.Matches w := by
  constructor
  · rintro ⟨r, hr, rfl, hw⟩
    exact (accepts_iff_matches hr w).1 hw
  · intro hm
    obtain ⟨r, hr, rfl⟩ := exists_row m
    exact ⟨r, hr, rfl, (accepts_iff_matches hr w).2 hm⟩

/-- R83: a mnemonic has one row. -/
theorem row_eq_of_mnemonic_eq : ∀ r ∈ opcodeTable, ∀ r' ∈ opcodeTable, r.mnemonic = r'.mnemonic → r = r' := by
  decide

/-! ### Lines -/

/-- The operand lists of a format: one value of each operand field it uses (R82, R84). -/
def Format.Operands : Format → List Nat → Prop
  | .Z, l => l = []
  | .K, l => ∃ k : BoxIdx, l = [k.toNat]
  | .KB, l => ∃ (k : BoxIdx) (x : Byte), l = [k.toNat, x.toNat]
  | .S, l => ∃ s : Pos, l = [s.toNat]
  | .KS, l => ∃ (k : BoxIdx) (s : Pos), l = [k.toNat, s.toNat]

/-- R84: the numbers in an operand's range are the values of its field. -/
theorem exists_boxIdx {k : Nat} (h : boxInRange k = true) : ∃ x : BoxIdx, k = x.toNat :=
  ⟨BitVec.ofNatLT k (of_decide_eq_true h), rfl⟩

theorem exists_byte {x : Nat} (h : byteInRange x = true) : ∃ y : Byte, x = y.toNat :=
  ⟨BitVec.ofNatLT x (of_decide_eq_true h), rfl⟩

theorem exists_pos {s : Nat} (h : seedInRange s = true) : ∃ p : Pos, s = p.toNat :=
  ⟨BitVec.ofNatLT s (of_decide_eq_true h), rfl⟩

/-- An accepted operand list has its format's length, and each operand fits its field. -/
theorem Format.operands_of_accepts {f : Format} {l : List Nat} (h : f.accepts l = true) : f.Operands l := by
  unfold Format.accepts at h
  split at h
  · rfl
  · obtain ⟨k, rfl⟩ := exists_boxIdx h
    exact ⟨k, rfl⟩
  · obtain ⟨hk, hx⟩ := Bool.and_eq_true_iff.1 h
    obtain ⟨k, rfl⟩ := exists_boxIdx hk
    obtain ⟨x, rfl⟩ := exists_byte hx
    exact ⟨k, x, rfl⟩
  · obtain ⟨s, rfl⟩ := exists_pos h
    exact ⟨s, rfl⟩
  · obtain ⟨hk, hs⟩ := Bool.and_eq_true_iff.1 h
    obtain ⟨k, rfl⟩ := exists_boxIdx hk
    obtain ⟨s, rfl⟩ := exists_pos hs
    exact ⟨k, s, rfl⟩
  · cases h

/-- Every well-formed line is the line of a command. -/
theorem exists_line_eq {l : CmdLine} (h : l.wellFormed = true) : ∃ i : Instr, i.line = l := by
  obtain ⟨m, operands⟩ := l
  have hops : m.format.Operands operands := Format.operands_of_accepts h
  cases m with
  | build => obtain rfl := hops; exact ⟨.build, rfl⟩
  | sbEnc => obtain ⟨k, x, rfl⟩ := hops; exact ⟨.sbEnc k x, rfl⟩
  | sbDec => obtain ⟨k, y, rfl⟩ := hops; exact ⟨.sbDec k y, rfl⟩
  | subEnc => obtain ⟨r, rfl⟩ := hops; exact ⟨.subEnc r, rfl⟩
  | subDec => obtain ⟨r, rfl⟩ := hops; exact ⟨.subDec r, rfl⟩
  | pbEnc => obtain ⟨s, rfl⟩ := hops; exact ⟨.pbEnc s, rfl⟩
  | pbDec => obtain ⟨s, rfl⟩ := hops; exact ⟨.pbDec s, rfl⟩
  | rndEnc => obtain ⟨r, s, rfl⟩ := hops; exact ⟨.rndEnc r s, rfl⟩
  | rndDec => obtain ⟨r, s, rfl⟩ := hops; exact ⟨.rndDec r s, rfl⟩
  | blkEnc => obtain rfl := hops; exact ⟨.blkEnc, rfl⟩
  | blkDec => obtain rfl := hops; exact ⟨.blkDec, rfl⟩
  | clrErr => obtain rfl := hops; exact ⟨.clrErr, rfl⟩

/-- R88: a command's own line assembles to it, each operand being read back at its own width. -/
theorem assemble_line (i : Instr) : assemble i.line = some i := by
  have hwf : i.line.wellFormed = true := i.wellFormed_true
  rw [assemble, if_pos hwf]
  cases i <;> simp [Instr.line, Instr.mnemonic, Instr.operands]

theorem assemble_of_not_wellFormed {l : CmdLine} (h : ¬ l.wellFormed = true) : assemble l = none := by
  rw [assemble, if_neg h]

theorem assemble_isSome (l : CmdLine) : (assemble l).isSome = l.wellFormed := by
  by_cases h : l.wellFormed = true
  · obtain ⟨i, rfl⟩ := exists_line_eq h
    rw [assemble_line, h, Option.isSome_some]
  · rw [assemble_of_not_wellFormed h, Bool.eq_false_iff.2 h, Option.isSome_none]

theorem line_of_assemble {l : CmdLine} {i : Instr} (h : assemble l = some i) : i.line = l := by
  have hwf : l.wellFormed = true := by rw [← assemble_isSome, h, Option.isSome_some]
  obtain ⟨j, rfl⟩ := exists_line_eq hwf
  rw [assemble_line] at h
  rw [Option.some.inj h]

/-! ### The obligations -/

/-- Settles O3: the decoder reads the fields back from the word, and every operand is as wide as its range. -/
theorem decodeInvertsEncode : Obligations.DecodeInvertsEncode := by
  unfold Obligations.DecodeInvertsEncode
  exact fun i => ⟨i.wellFormed_true, decode_encode i⟩

/-- Settles O4: the fields of a word that decodes are those of its command, and the reserved ones are 0. -/
theorem encodeInvertsDecode : Obligations.EncodeInvertsDecode := by
  unfold Obligations.EncodeInvertsDecode
  exact fun _ _ => encode_of_decode

/-- Settles O5: decoder and table both say that the word matches the mnemonic, which it does for one mnemonic at most. -/
theorem decoderAgreesWithTheOpcodeTable : Obligations.DecoderAgreesWithTheOpcodeTable := by
  unfold Obligations.DecoderAgreesWithTheOpcodeTable
  refine ⟨fun w m => (decode_mnemonic_iff w m).trans (exists_row_accepts_iff w m).symm, fun w r hr r' hr' h h' => ?_⟩
  exact row_eq_of_mnemonic_eq r hr r' hr' (((accepts_iff_matches hr w).1 h).eq ((accepts_iff_matches hr' w).1 h'))

/-- Settles O7: the well-formed lines are the lines of commands, and each of these assembles to its command. -/
theorem assemblingALineGivesItsCommand : Obligations.AssemblingALineGivesItsCommand := by
  unfold Obligations.AssemblingALineGivesItsCommand
  exact ⟨assemble_line, assemble_isSome, fun _ _ => line_of_assemble⟩

/-- Settles O1: the sum is the word's, field by field; the examples are computed. -/
theorem encodingIsTheFieldSum : Obligations.EncodingIsTheFieldSum := by
  unfold Obligations.EncodingIsTheFieldSum
  exact ⟨encode_toNat, by decide⟩

/-- Settles O2: the twelve words are decoded one by one. -/
theorem sampleWordsDecodeToTheirCommands : Obligations.SampleWordsDecodeToTheirCommands := by
  unfold Obligations.SampleWordsDecodeToTheirCommands
  decide

end Sys2Proof
end

section
/-! PROOFS. What a command reads and writes of the state: the tables, `BLK` and `RESULT`, but neither `KEY` (but for `BUILD`,
spec/10_state.md R27) nor `ERR` (R23) nor the accesses to come. -/

namespace Sys2Proof.Machine

/-! ### A command reads the tables, `BLK` and `RESULT` -/

section Congr
variable {s t : State} (ht : t.tables = s.tables)
include ht

theorem sboxEnc_congr (k : BoxIdx) (x : Byte) : sboxEnc t k x = sboxEnc s k x := by
  obtain ⟨hse, -⟩ := State.tables_eq_iff.1 ht
  rw [sboxEnc, hse, ← sboxEnc]

theorem sboxDec_congr (k : BoxIdx) (y : Byte) : sboxDec t k y = sboxDec s k y := by
  obtain ⟨-, hsd, -⟩ := State.tables_eq_iff.1 ht
  rw [sboxDec, hsd, ← sboxDec]

theorem blockAfter_congr (hb : t.blk = s.blk) (i : Instr) : blockAfter i t = blockAfter i s := by
  obtain ⟨hse, hsd, hpe, hpd⟩ := State.tables_eq_iff.1 ht
  cases i with
  | blkEnc => rw [blockAfter_blkEnc, passEnc_congr hse hpe, hb, blockAfter_blkEnc]
  | blkDec => rw [blockAfter_blkDec, passDec_congr hse hsd hpd, hb, blockAfter_blkDec]
  | build | sbEnc | sbDec | clrErr => exact hb
  | subEnc | subDec | pbEnc | pbDec | rndEnc | rndDec =>
    simp only [blockAfter, roundEnc, roundDec, hse, hsd, hpe, hpd, hb]

theorem resultAfter_congr (hr : t.result = s.result) (i : Instr) : resultAfter i t = resultAfter i s := by
  cases i with
  | sbEnc k x => exact sboxEnc_congr ht k x
  | sbDec k y => exact sboxDec_congr ht k y
  | build | subEnc | subDec | pbEnc | pbDec | rndEnc | rndDec | blkEnc | blkDec | clrErr => exact hr

end Congr

/-! ### What no command looks at -/

theorem afterCommand_setKey {i : Instr} (hi : i ≠ .build) (s : State) (k : Key) :
    afterCommand i (s.setKey k) = (afterCommand i s).setKey k := by
  have hblk : blockAfter i (s.setKey k) = blockAfter i s := blockAfter_congr rfl rfl i
  have hresult : resultAfter i (s.setKey k) = resultAfter i s := resultAfter_congr rfl rfl i
  simp only [afterCommand, if_neg hi, hblk, hresult, State.setKey_keyed]
  split
  · rfl
  · split <;> rfl

theorem afterCommand_setPending (i : Instr) (s : State) (p : List HostEvent) :
    afterCommand i (s.setPending p) = (afterCommand i s).setPending p := by
  have hblk : blockAfter i (s.setPending p) = blockAfter i s := blockAfter_congr rfl rfl i
  have hresult : resultAfter i (s.setPending p) = resultAfter i s := resultAfter_congr rfl rfl i
  simp only [afterCommand, hblk, hresult, State.setPending_keyed]
  split
  · rfl
  · split
    · rfl
    · split <;> rfl

/-- With another `ERR` a command leaves the same state but for `ERR`. -/
theorem afterCommand_setErr (i : Instr) (s : State) (e : BitVec 4) :
    (afterCommand i (s.setErr e)).setErr (afterCommand i s).err = afterCommand i s := by
  have hblk : blockAfter i (s.setErr e) = blockAfter i s := blockAfter_congr rfl rfl i
  have hresult : resultAfter i (s.setErr e) = resultAfter i s := resultAfter_congr rfl rfl i
  simp only [afterCommand, hblk, hresult, State.setErr_keyed]
  split_ifs <;> rfl

theorem afterCommand_key (i : Instr) (s : State) : (afterCommand i s).key = s.key := by
  unfold afterCommand
  split_ifs <;> rfl

/-- Settles O47: the tables, `BLK` and `RESULT` are what the commands other than `BUILD` read, and no command writes `KEY`. -/
theorem keyIsSeenOnlyByBuild : Obligations.KeyIsSeenOnlyByBuild := by
  unfold Obligations.KeyIsSeenOnlyByBuild
  refine ⟨fun i s k hi => ?_, fun i s t ht => ?_⟩
  · rw [exec_eq, exec_eq, afterCommand_setKey hi]
    rfl
  · rw [exec_eq] at ht
    rw [← Host.Outcome.next.inj ht, afterCommand_key]

/-- Settles O48: the choice of a command's effect rests on `KEYED` alone, and its effect outside `ERR` does not read `ERR`. -/
theorem noResultDependsOnErr : Obligations.NoResultDependsOnErr := by
  unfold Obligations.NoResultDependsOnErr
  exact fun i s e => ⟨_, _, exec_eq i s, exec_eq i (s.setErr e), afterCommand_setErr i s e⟩

end Sys2Proof.Machine
end

section
/-! PROOFS. One step of the machine: which parts of the state it can change and by which access (spec/10_state.md R23, R26, R32),
the reset input (spec/70_reset_and_hazards.md R250, R251), and a run over a list of accesses (spec/20_memory.md R62). -/

namespace Sys2Proof.Machine

/-! ### What a command leaves, case by case -/

/-- The four ways a command can go: `BUILD`, `CLRERR`, and a table-using command with and without tables. -/
theorem afterCommand_cases (i : Instr) (s : State) :
    (i = .build ∧ afterCommand i s = construct s) ∨ (i = .clrErr ∧ afterCommand i s = s.setErr 0) ∨
    (needsTables i = true ∧ s.keyed = true ∧
      afterCommand i s = (s.setBlk (blockAfter i s)).setResult (resultAfter i s)) ∨
    (needsTables i = true ∧ s.keyed = false ∧ afterCommand i s = rejectedState 2 s) := by
  by_cases hi : needsTables i = true
  · cases hs : s.keyed with
    | true => exact .inr (.inr (.inl ⟨hi, rfl, afterCommand_keyed hi hs⟩))
    | false => exact .inr (.inr (.inr ⟨hi, rfl, afterCommand_unkeyed hi hs⟩))
  · rw [needsTables_iff, not_and_or, not_not, not_not] at hi
    obtain rfl | rfl := hi
    · exact .inl ⟨rfl, rfl⟩
    · exact .inr (.inl ⟨rfl, rfl⟩)

/-- The result register after a command is as before or what a lookup found. -/
theorem resultAfter_cases (i : Instr) (s : State) :
    resultAfter i s = s.result ∨ (∃ k x, i = .sbEnc k x ∧ resultAfter i s = sboxEnc s k x) ∨
    ∃ k y, i = .sbDec k y ∧ resultAfter i s = sboxDec s k y := by
  cases i with
  | sbEnc k x => exact .inr (.inl ⟨k, x, rfl, rfl⟩)
  | sbDec k y => exact .inr (.inr ⟨k, y, rfl, rfl⟩)
  | build | subEnc | subDec | pbEnc | pbDec | rndEnc | rndDec | blkEnc | blkDec | clrErr => exact .inl rfl

/-! ### The part of the state that only commands and resets write -/

/-- The tables, the two flags and `RESULT`: what no window write, no read and no refused write touches. -/
def State.internals (s : State) : (Boxes × Boxes × PTable × PTable) × Bool × BitVec 4 × Byte :=
  (s.tables, s.keyed, s.err, s.result)

theorem State.internals_eq_iff {s t : State} : t.internals = s.internals ↔
    t.tables = s.tables ∧ t.keyed = s.keyed ∧ t.err = s.err ∧ t.result = s.result := by
  simp [State.internals]

theorem windowWrite_internals {s u : State} {off : Nat} {v : Word} (h : windowWrite s off v = some u) :
    u.internals = s.internals := by
  obtain ⟨b, rfl⟩ | ⟨b, rfl⟩ | ⟨k, rfl⟩ := windowWrite_cases h <;> rfl

/-- A step leaves the internals as they are, or it is a `CMD` write or the reset input. -/
theorem step_internals {s t : State} (h : step s = .next t) :
    t.internals = s.internals ∨ ∃ e rest, s.pending = e :: rest ∧
      ((∃ w i, e = .write 0x0000 4 w ∧ decode w = .ok i ∧ t = afterCommand i ((s.setPending rest).setResponse .ok)) ∨
       (∃ w x, e = .write 0x0000 4 w ∧ decode w = .error x ∧
        t = rejectedState 1 ((s.setPending rest).setResponse .ok)) ∨
       (isReset e = true ∧ ∃ w r, t = applyReset w r (s.setPending rest))) := by
  obtain ⟨-, rfl⟩ | ⟨e, rest, hp, hcase⟩ := step_cases h
  · exact .inl rfl
  obtain ⟨_, _, _, -, -, rfl⟩ | ⟨_, _, _, -, rfl⟩ | hcommand | ⟨w, x, he, hw, rfl⟩ | ⟨_, _, u, -, -, hu, rfl⟩ | hreset :=
    hcase
  · exact .inl rfl
  · exact .inl rfl
  · exact .inr ⟨e, rest, hp, .inl hcommand⟩
  · exact .inr ⟨e, rest, hp, .inr (.inl ⟨w, x, he, hw, reject_eq .illCmd _⟩)⟩
  · have hinternals : u.internals = (s.setPending rest).internals := windowWrite_internals hu
    exact .inl hinternals
  · exact .inr ⟨e, rest, hp, .inr (.inr hreset)⟩

/-! ### The invariant (R32, R220) -/

theorem State.TablesInverse.congr {s t : State} (h : s.TablesInverse) (ht : t.tables = s.tables) :
    t.TablesInverse := by
  obtain ⟨-, -, hpe, hpd⟩ := State.tables_eq_iff.1 ht
  constructor <;> intros <;> simp only [sboxEnc_congr ht, sboxDec_congr ht, hpe, hpd, h.sdSe, h.seSd, h.pdPe, h.pePd]

theorem State.Inv.congr {s t : State} (h : s.Inv) (htables : t.tables = s.tables) (hkeyed : t.keyed = s.keyed)
    (herr : t.err = s.err) : t.Inv :=
  ⟨fun hk => (h.tables (hkeyed ▸ hk)).congr htables, herr ▸ h.errCode⟩

theorem State.inv_of_unkeyed {s : State} (hs : s.keyed = false) (herr : s.err = 0) : s.Inv :=
  ⟨fun hk => (nomatch hs.symm.trans hk), .inl herr⟩

theorem State.Inv.setErr {s : State} (h : s.Inv) {e : BitVec 4} (he : e = 0 ∨ e = 1 ∨ e = 2) : (s.setErr e).Inv :=
  ⟨fun hk => (h.tables hk).congr rfl, he⟩

theorem State.Inv.rejectedState {s : State} (h : s.Inv) {e : BitVec 4} (he : e = 1 ∨ e = 2) :
    (rejectedState e s).Inv := by
  refine h.setErr ?_
  split_ifs
  · exact .inr he
  · exact h.errCode

theorem State.Inv.afterCommand {s : State} (h : s.Inv) (i : Instr) : (afterCommand i s).Inv := by
  obtain ⟨-, ht⟩ | ⟨-, ht⟩ | ⟨-, -, ht⟩ | ⟨-, -, ht⟩ := afterCommand_cases i s <;> rw [ht]
  · exact ⟨fun _ => construct_tablesInverse s, h.errCode⟩
  · exact h.setErr (.inl rfl)
  · exact h.congr rfl rfl rfl
  · exact h.rejectedState (.inr rfl)

/-- Settles O52: a step that is no `CMD` write and no reset leaves the tables and the flags alone; `BUILD` makes inverse tables,
a rejection records one of the two codes, and a reset clears `KEYED` and `ERR`. -/
theorem everyStepKeepsTheInvariant : Obligations.EveryStepKeepsTheInvariant := by
  unfold Obligations.EveryStepKeepsTheInvariant
  intro s t h hstep
  obtain ht | ⟨e, rest, -, ⟨w, i, -, -, rfl⟩ | ⟨w, x, -, -, rfl⟩ | ⟨-, w, r, rfl⟩⟩ := step_internals hstep
  · obtain ⟨htables, hkeyed, herr, -⟩ := State.internals_eq_iff.1 ht
    exact h.congr htables hkeyed herr
  · have hs : ((s.setPending rest).setResponse .ok).Inv := h.congr rfl rfl rfl
    exact hs.afterCommand i
  · have hs : ((s.setPending rest).setResponse .ok).Inv := h.congr rfl rfl rfl
    exact hs.rejectedState (.inl rfl)
  · exact State.inv_of_unkeyed (applyReset_keyed w r _) (applyReset_err w r _)

/-- Settles O53: after reset there are no tables to be inverse, and no error. -/
theorem resetMeetsTheInvariant : Obligations.ResetMeetsTheInvariant := by
  unfold Obligations.ResetMeetsTheInvariant
  exact fun _ => State.inv_of_unkeyed rfl rfl

/-! ### The flags and `RESULT` -/

theorem decode_eq_clrErr {w : Word} (h : decode w = .ok .clrErr) : w = 0xC0000000 := by
  rw [← encode_of_decode h]
  decide

/-- Over one command `KEYED` changes only by `BUILD`, which sets it (R23). -/
theorem afterCommand_keyed_cases (i : Instr) (s : State) :
    (afterCommand i s).keyed = s.keyed ∨ (i = .build ∧ (afterCommand i s).keyed = true) := by
  obtain ⟨hi, ht⟩ | ⟨-, ht⟩ | ⟨-, -, ht⟩ | ⟨-, -, ht⟩ := afterCommand_cases i s <;> rw [ht]
  · exact .inr ⟨hi, rfl⟩
  all_goals exact .inl rfl

/-- A rejection changes `ERR` only from 0, to its own code (R221). -/
theorem rejectedState_err_cases (e : BitVec 4) (s : State) :
    (rejectedState e s).err = s.err ∨ (s.err = 0 ∧ (rejectedState e s).err = e) := by
  by_cases herr : s.err = 0
  · exact .inr ⟨herr, congrArg State.err (rejectedState_of_err_zero herr e)⟩
  · exact .inl (rejectedState_err_of_err_ne_zero herr e)

/-- Over one command `ERR` changes only by `CLRERR`, which clears it, and by a rejection (R23). -/
theorem afterCommand_err_cases (i : Instr) (s : State) :
    (afterCommand i s).err = s.err ∨ (i = .clrErr ∧ (afterCommand i s).err = 0) ∨
    (s.err = 0 ∧ (afterCommand i s).err = 2 ∧ s.keyed = false ∧ needsTables i = true) := by
  obtain ⟨-, ht⟩ | ⟨hi, ht⟩ | ⟨-, -, ht⟩ | ⟨hi, hs, ht⟩ := afterCommand_cases i s <;> rw [ht]
  · exact .inl rfl
  · exact .inr (.inl ⟨hi, rfl⟩)
  · exact .inl rfl
  · exact (rejectedState_err_cases 2 s).imp_right fun ⟨h0, h2⟩ => .inr ⟨h0, h2, hs, hi⟩

/-- Over one command `RESULT` changes only by a lookup on a keyed engine (R26). -/
theorem afterCommand_result_cases (i : Instr) (s : State) :
    (afterCommand i s).result = s.result ∨ (s.keyed = true ∧
      ((∃ k x, i = .sbEnc k x ∧ (afterCommand i s).result = sboxEnc s k x) ∨
       ∃ k y, i = .sbDec k y ∧ (afterCommand i s).result = sboxDec s k y)) := by
  obtain ⟨-, ht⟩ | ⟨-, ht⟩ | ⟨-, hs, ht⟩ | ⟨-, -, ht⟩ := afterCommand_cases i s <;> rw [ht]
  · exact .inl rfl
  · exact .inl rfl
  · exact (resultAfter_cases i s).imp_right fun h => ⟨hs, h⟩
  · exact .inl rfl

/-- Settles O49: of what can change the internals, `BUILD` and the reset input write `KEYED`; `CLRERR`, a rejection and the reset
input write `ERR`. -/
theorem flagsChangeOnlyByTheirOwnEvents : Obligations.FlagsChangeOnlyByTheirOwnEvents := by
  unfold Obligations.FlagsChangeOnlyByTheirOwnEvents
  intro s t hstep
  obtain ht | ⟨e, rest, hp, ⟨w, i, rfl, hw, rfl⟩ | ⟨w, x, rfl, hw, rfl⟩ | ⟨hreset, w, r, rfl⟩⟩ := step_internals hstep
  · obtain ⟨-, hkeyed, herr, -⟩ := State.internals_eq_iff.1 ht
    exact ⟨fun h => absurd hkeyed h, fun h => absurd herr h⟩
  · refine ⟨fun h => ⟨_, _, hp, .inl ?_⟩, fun h => ⟨_, _, hp, ?_⟩⟩
    · obtain ⟨rfl, hkeyed⟩ := (afterCommand_keyed_cases i _).resolve_left h
      exact ⟨hkeyed, by rw [decode_eq_build hw]⟩
    · obtain ⟨rfl, herr⟩ | ⟨h0, h2, hs, hi⟩ := (afterCommand_err_cases i _).resolve_left h
      · exact .inl ⟨herr, .inl (by rw [decode_eq_clrErr hw])⟩
      · exact .inr ⟨h0, w, rfl, .inr ⟨h2, hs, i, hw, hi⟩⟩
  · refine ⟨fun h => absurd rfl h, fun h => ⟨_, _, hp, .inr ?_⟩⟩
    obtain ⟨h0, h1⟩ := (rejectedState_err_cases 1 _).resolve_left h
    exact ⟨h0, w, rfl, .inl ⟨h1, x, hw⟩⟩
  · exact ⟨fun _ => ⟨e, rest, hp, .inr ⟨applyReset_keyed w r _, hreset⟩⟩,
      fun _ => ⟨e, rest, hp, .inl ⟨applyReset_err w r _, .inr hreset⟩⟩⟩

/-- Settles O50: of what can change the internals, a lookup and the reset input write `RESULT`. -/
theorem resultChangesOnlyByALookup : Obligations.ResultChangesOnlyByALookup := by
  unfold Obligations.ResultChangesOnlyByALookup
  intro s t hstep hne
  obtain ht | ⟨e, rest, hp, ⟨w, i, rfl, hw, rfl⟩ | ⟨w, x, -, -, rfl⟩ | ⟨hreset, w, r, rfl⟩⟩ := step_internals hstep
  · obtain ⟨-, -, -, hresult⟩ := State.internals_eq_iff.1 ht
    exact absurd hresult hne
  · obtain ⟨hs, ⟨k, x, rfl, ht⟩ | ⟨k, y, rfl, ht⟩⟩ := (afterCommand_result_cases i _).resolve_left hne
    · exact ⟨_, _, hp, .inr ⟨k, x, hs, .inl ⟨by rw [encode_of_decode hw], ht⟩⟩⟩
    · exact ⟨_, _, hp, .inr ⟨k, y, hs, .inr ⟨by rw [encode_of_decode hw], ht⟩⟩⟩
  · exact absurd rfl hne
  · exact ⟨e, rest, hp, .inl ⟨applyReset_result w r _, hreset⟩⟩

/-! ### The reset input and the command port -/

/-- R250, R251: the reset input makes the step a reset, whatever it cuts short. -/
theorem step_reset {s : State} {e : HostEvent} {rest : List HostEvent} (he : isReset e = true)
    (hp : s.pending = e :: rest) : ∃ w r, step s = .next (applyReset w r (s.setPending rest)) := by
  rw [step_cons hp]
  cases e with
  | read | write => cases he
  | reset => exact ⟨_, _, rfl⟩
  | resetDuring => exact ⟨_, _, rfl⟩

/-- Settles O11: the reset clears `KEYED`, `ERR` and `RESULT`, so a table-using command after it is a first error. -/
theorem resetInputClearsFlagsFromAnyState : Obligations.ResetInputClearsFlagsFromAnyState := by
  unfold Obligations.ResetInputClearsFlagsFromAnyState
  intro s rest e he hp
  obtain ⟨w, r, hstep⟩ := step_reset he hp
  have hkeyed := applyReset_keyed w r (s.setPending rest)
  have herr := applyReset_err w r (s.setPending rest)
  refine ⟨_, hstep, hkeyed, herr, applyReset_result w r _, applyReset_pending w r _, fun i hi => ?_⟩
  rw [exec_unkeyed hi hkeyed, rejectedState_of_err_zero herr]

/-- Settles O10: the reset values of the flags and of `RESULT` are 0. -/
theorem resetLeavesFlagsAndResultZero : Obligations.ResetLeavesFlagsAndResultZero := by
  unfold Obligations.ResetLeavesFlagsAndResultZero
  have hstatus : readStatus State.reset = statusWord false 0 := rfl
  exact ⟨rfl, rfl, rfl, hstatus.trans (by decide), rfl⟩

/-- Settles O8: the write of a word that decodes is that command on the state answered normally. -/
theorem stepRunsTheDecodedCommand : Obligations.StepRunsTheDecodedCommand := by
  unfold Obligations.StepRunsTheDecodedCommand
  exact fun _ _ _ _ => step_command

/-! ### A run over a list of accesses (R62) -/

theorem windowWrite_setPending (s : State) (off : Nat) (v : Word) (p : List HostEvent) :
    windowWrite (s.setPending p) off v = (windowWrite s off v).map (·.setPending p) := by
  unfold windowWrite
  split_ifs <;> rfl

/-- No access looks at the accesses to come, and none changes them. -/
theorem hostEvent_setPending (e : HostEvent) (s : State) (p : List HostEvent) :
    hostEvent e (s.setPending p) = onNext (·.setPending p) (hostEvent e s) := by
  cases e with
  | read off n =>
    have hread : memRead (s.setPending p) off n = memRead s off n := rfl
    rw [hostEvent, hread, hostEvent]
    cases memRead s off n <;> rfl
  | write off n v =>
    rw [hostEvent, hostEvent, memWrite, memWrite]
    split_ifs
    · rfl
    · rw [execute, execute]
      cases decode v with
      | ok i =>
        simp only [exec_eq, onNext]
        exact congrArg _ (afterCommand_setPending i (s.setResponse .ok) p)
      | error x => simp only [reject_eq]; rfl
    · rw [windowWrite_setPending]
      cases windowWrite s off v <;> rfl
  | reset => rfl
  | resetDuring w => rfl

/-- A run that ends makes its first step and runs on from there. -/
theorem run_succ_iff (M : Host.Core) (n : Nat) (s t : M.State) :
    M.run (n + 1) s = .next t ↔ ∃ u, M.step s = .next u ∧ M.run n u = .next t := by
  rw [Host.Core.run]
  cases M.step s with
  | next u => exact ⟨fun h => ⟨u, rfl, h⟩, fun ⟨_, hu, h⟩ => Host.Outcome.next.inj hu ▸ h⟩
  | fault f => exact ⟨nofun, nofun⟩
  | refused r => exact ⟨nofun, nofun⟩

/-- With nothing else to come, making the accesses of a list and running the machine over them end alike. -/
theorem issueAll_eq_ok_iff_run (events : List HostEvent) {s t : State} (hs : s.setPending [] = s) :
    issueAll events s = .ok t ↔ core.run events.length (s.setPending events) = .next t := by
  induction events generalizing s with
  | nil =>
    rw [hs]
    exact ⟨fun h => congrArg _ (Except.ok.inj h), fun h => congrArg _ (Host.Outcome.next.inj h)⟩
  | cons e rest ih =>
    have hstep : core.step (s.setPending (e :: rest)) = onNext (·.setPending rest) (hostEvent e s) :=
      (step_cons (s := s.setPending (e :: rest)) rfl).trans (hostEvent_setPending e s rest)
    refine Iff.trans ?_ (run_succ_iff core rest.length _ _).symm
    rw [hstep, issueAll, issue]
    cases hnext : hostEvent e s with
    | next u =>
      have hu : u.setPending [] = u := by
        have hevent := hostEvent_setPending e s []
        rw [hs, hnext] at hevent
        exact (Host.Outcome.next.inj hevent).symm
      refine (ih hu).trans ⟨fun h => ⟨_, rfl, h⟩, ?_⟩
      rintro ⟨_, ⟨⟩, h⟩
      exact h
    | fault f => exact ⟨nofun, nofun⟩
    | refused r => exact ⟨nofun, nofun⟩

/-- Settles O20: by induction on the accesses, since an access neither sees nor changes those after it. -/
theorem pendingAccessesTakeEffectInOrder : Obligations.PendingAccessesTakeEffectInOrder := by
  unfold Obligations.PendingAccessesTakeEffectInOrder
  exact fun events s _ => issueAll_eq_ok_iff_run events (s := s.setPending []) rfl

end Sys2Proof.Machine
end

section
/-! PROOFS. The host's accesses (spec/20_memory.md R51 to R55): which of them are served, what a read of a register or of the
`BLK` window shows (spec/10_state.md R24 to R26), and what a write to a window leaves. -/

namespace Sys2Proof.Machine

/-! ### One access (R52, R224, R236) -/

/-- A legal read is answered with data and changes nothing but the response. -/
theorem step_legalRead {s : State} {rest : List HostEvent} {off n : Nat} {w : Word}
    (hp : s.pending = .read off n :: rest) (hw : memRead s off n = some w) :
    step s = .next ((s.setPending rest).setResponse (.data w)) := by
  have hread : memRead (s.setPending rest) off n = some w := hw
  rw [step_cons hp]
  simp only [hostEvent, hread]

/-- An illegal read stops the machine. -/
theorem step_illegalRead {s : State} {rest : List HostEvent} {off n : Nat}
    (hp : s.pending = .read off n :: rest) (hw : memRead s off n = none) : step s = .fault (.busFault off) := by
  have hread : memRead (s.setPending rest) off n = none := hw
  rw [step_cons hp]
  simp only [hostEvent, hread]

theorem aligned_of_legal_write {off n : Nat} {v : Word} (h : (HostEvent.write off n v).legal = true) :
    ¬ (n ≠ 4 ∨ off % 4 ≠ 0) := by
  simp only [HostEvent.legal, Bool.and_eq_true, decide_eq_true_iff] at h
  omega

theorem afterCommand_response (i : Instr) (s : State) : (afterCommand i s).response = s.response := by
  unfold afterCommand
  split_ifs <;> rfl

/-- A `CMD` write is answered normally, whatever becomes of its word (R221). -/
theorem execute_response (w : Word) (s : State) : ∃ t, execute w s = .next t ∧ t.response = .ok := by
  cases hw : decode w with
  | ok i => exact ⟨_, by rw [execute, hw]; exact exec_eq i _, afterCommand_response i _⟩
  | error e => exact ⟨_, by rw [execute, hw], by rw [reject_eq]; rfl⟩

/-- A legal write is answered normally. -/
theorem step_legalWrite {s : State} {rest : List HostEvent} {off n : Nat} {v : Word}
    (hp : s.pending = .write off n v :: rest) (h : (HostEvent.write off n v).legal = true) :
    ∃ t, step s = .next t ∧ t.response = .ok := by
  have haligned := aligned_of_legal_write h
  rw [step_cons hp, hostEvent, memWrite, if_neg haligned]
  by_cases hcmd : off = 0x0000
  · rw [if_pos hcmd]
    exact execute_response v _
  · have hwindow := windowWrite_isSome (s.setPending rest) off n v hcmd (by omega) (by omega)
    obtain ⟨u, hu⟩ := Option.isSome_iff_exists.1 (hwindow.trans h)
    rw [if_neg hcmd, hu]
    exact ⟨_, rfl, rfl⟩

/-- An illegal write is answered with an error and changes nothing else. -/
theorem step_illegalWrite {s : State} {rest : List HostEvent} {off n : Nat} {v : Word}
    (hp : s.pending = .write off n v :: rest) (h : (HostEvent.write off n v).legal = false) :
    step s = .next ((s.setPending rest).setResponse .error) := by
  rw [step_cons hp, hostEvent, memWrite]
  by_cases haligned : n ≠ 4 ∨ off % 4 ≠ 0
  · rw [if_pos haligned]
  · obtain ⟨rfl, hoff⟩ : n = 4 ∧ off % 4 = 0 := by omega
    have hcmd : off ≠ 0x0000 := by
      rintro rfl
      cases h
    have hwindow : windowWrite (s.setPending rest) off v = none := by
      rw [← Option.isNone_iff_eq_none, ← Option.not_isSome, windowWrite_isSome _ off 4 v hcmd rfl hoff, h, Bool.not_false]
    rw [if_neg haligned, if_neg hcmd, hwindow]

/-- A step answers a next state unless its access is an illegal read. -/
theorem step_outcome (s : State) : (∃ t, step s = .next t) ∨ ∃ off n rest, s.pending = .read off n :: rest ∧
    (HostEvent.read off n).legal = false ∧ step s = .fault (.busFault off) := by
  cases hp : s.pending with
  | nil => exact .inl ⟨s, step_nil hp⟩
  | cons e rest =>
    cases e with
    | read off n =>
      cases hw : memRead s off n with
      | some w => exact .inl ⟨_, step_legalRead hp hw⟩
      | none => exact .inr ⟨off, n, rest, rfl, by rw [← memRead_isSome s, hw]; rfl, step_illegalRead hp hw⟩
    | write off n v =>
      cases h : (HostEvent.write off n v).legal with
      | true =>
        obtain ⟨t, ht, -⟩ := step_legalWrite hp h
        exact .inl ⟨t, ht⟩
      | false => exact .inl ⟨_, step_illegalWrite hp h⟩
    | reset | resetDuring =>
      obtain ⟨w, r, ht⟩ := step_reset rfl hp
      exact .inl ⟨_, ht⟩

/-- Settles O12: a read has a value exactly when it is legal, and a write away from `CMD` finds a window exactly then. -/
theorem onlyLegalAccessesAreServed : Obligations.OnlyLegalAccessesAreServed := by
  unfold Obligations.OnlyLegalAccessesAreServed
  refine ⟨fun s rest off n hp => ⟨fun h => ?_, fun h => ?_⟩,
    fun s rest off n v hp => ⟨step_legalWrite hp, step_illegalWrite hp⟩⟩
  · obtain ⟨w, hw⟩ := Option.isSome_iff_exists.1 ((memRead_isSome s off n).trans h)
    exact ⟨w, hw, step_legalRead hp hw⟩
  · have hw : memRead s off n = none := by
      rw [← Option.isNone_iff_eq_none, ← Option.not_isSome, memRead_isSome, h, Bool.not_false]
    exact ⟨hw, step_illegalRead hp hw⟩

/-- Settles O13: every access but an illegal read leads to a next state. -/
theorem engineStopsOnlyOnAnIllegalRead : Obligations.EngineStopsOnlyOnAnIllegalRead := by
  unfold Obligations.EngineStopsOnlyOnAnIllegalRead
  refine ⟨fun s f => ⟨fun hf => ?_, ?_⟩, fun s r hr => ?_, fun s => step_nil⟩
  · obtain ⟨t, ht⟩ | ⟨off, n, rest, hp, hillegal, hstep⟩ := step_outcome s
    · cases ht.symm.trans hf
    · exact ⟨off, n, rest, hp, hillegal, Host.Outcome.fault.inj (hf.symm.trans hstep)⟩
  · rintro ⟨off, n, rest, hp, hillegal, rfl⟩
    exact ((onlyLegalAccessesAreServed.1 s rest off n hp).2 hillegal).2
  · obtain ⟨t, ht⟩ | ⟨_, _, _, -, -, hstep⟩ := step_outcome s
    · cases ht.symm.trans hr
    · cases hstep.symm.trans hr

/-! ### The registers (R24 to R26) -/

/-- The fields of a `STATUS` word (R25). -/
theorem statusWord_fields : ∀ (keyed : Bool) (err : BitVec 4),
    (statusWord keyed err).getLsbD 0 = keyed ∧ (statusWord keyed err).extractLsb' 1 3 = 0 ∧
    (statusWord keyed err).extractLsb' 4 4 = err ∧ (statusWord keyed err).extractLsb' 8 24 = 0 := by
  decide

theorem State.Inv.err_le {s : State} (h : s.Inv) : s.err ≤ 2 := by
  obtain herr | herr | herr := h.errCode <;> rw [herr] <;> decide

/-- Settles O14: the word read is made of the two flags, and an illegal write is refused. -/
theorem statusReadsKeyedAndErr : Obligations.StatusReadsKeyedAndErr := by
  unfold Obligations.StatusReadsKeyedAndErr
  refine fun s rest => ⟨fun hp => ?_, fun v hp => step_illegalWrite hp rfl⟩
  obtain ⟨hkeyed, hzeros, herr, hhigh⟩ := statusWord_fields s.keyed s.err
  exact ⟨readStatus s, step_legalRead hp rfl, hkeyed, hzeros, herr, hhigh, fun h => herr.trans_le h.err_le⟩

/-- Settles O15: `CMD` has no value of its own, and the `RESULT` byte is extended with zeros. -/
theorem cmdReadsZeroAndResultReadsItsByte : Obligations.CmdReadsZeroAndResultReadsItsByte := by
  unfold Obligations.CmdReadsZeroAndResultReadsItsByte
  refine fun s rest => ⟨fun hp => step_legalRead hp rfl, fun hp => ?_, fun v hp => step_illegalWrite hp rfl⟩
  refine ⟨readResult s, step_legalRead hp rfl, ?_, ?_⟩
  · refine BitVec.eq_of_getLsbD_eq fun i hi => ?_
    have hword : i < 32 := by omega
    simp [readResult, hi, hword]
  · refine BitVec.eq_of_getLsbD_eq fun i hi => ?_
    simp [readResult]

/-! ### The block as one integer (R54) -/

/-- Bit `p` of a block is bit `p mod 32` of word `p div 32`: its byte is byte `p div 8 mod 4` of that word. -/
theorem wordOf_getLsbD (b : Block) (p : Pos) (h : 4 * (p.toNat / 32) + 3 < 256) :
    (wordOf b (p.toNat / 32) h).getLsbD (p.toNat % 32) = bitAt b p := by
  have hword : p.toNat / 8 / 4 = p.toNat / 32 := Nat.div_div_eq_div_mul _ _ _
  have hbit : 8 * (p.toNat / 8 % 4) + p.toNat % 8 = p.toNat % 32 := by omega
  have hbyte := wordOf_byte_of_index b (p.toNat / 8) (byteIndex p).isLt (by omega)
  have hbits : bitAt b p = ((wordOf b (p.toNat / 8 / 4) (by omega)).extractLsb' (8 * (p.toNat / 8 % 4)) 8).getLsbD
      (p.toNat % 8) := by
    rw [hbyte]
    rfl
  rw [hbits, BitVec.getLsbD_extractLsb', hbit]
  simp [hword, Nat.mod_lt]

/-- Settles O17: the word read at a window offset is made of four bytes of the block. -/
theorem blockWindowIsOneLittleEndianInteger : Obligations.BlockWindowIsOneLittleEndianInteger := by
  unfold Obligations.BlockWindowIsOneLittleEndianInteger
  intro s p
  have hj : 4 * (p.toNat / 32) + 3 < 256 := by omega
  exact ⟨_, memRead_blkWindow s _ hj, wordOf_getLsbD s.blk p hj⟩

end Sys2Proof.Machine
end

section
/-! PROOFS. A word written through a window (spec/20_memory.md R53, R55 to R58), byte by byte of the register map, and the
pseudo-instructions that load and read a whole array (spec/30_encoding.md R89). -/

namespace Sys2Proof.Machine

/-! ### The bytes a window shows -/

namespace Window
variable {n : Nat} (W : Window n)

/-- The bytes of the register map that belong to the window are those of its array, and its writes leave the others alone. -/
structure ShowsBytes : Prop where
  inside : ∀ s i (h : i < n), s.windowByte (W.base + i) = some (W.get s)[i]
  outside : ∀ s v a, ¬ (W.base ≤ a ∧ a < W.base + n) → (W.set s v).windowByte a = s.windowByte a

/-- The state a write of `v` to word `j` of the window leaves: that word in the array, and the normal response. -/
def afterWrite (s : State) (j : Nat) (v : Word) (h : 4 * j + 3 < n) : State :=
  (W.set s (putWord (W.get s) j v h)).setResponse .ok

theorem get_afterWrite (s : State) (j : Nat) (v : Word) (h : 4 * j + 3 < n) :
    W.get (W.afterWrite s j v h) = putWord (W.get s) j v h := by
  rw [afterWrite, W.get_setResponse, W.get_set]

theorem step_write {s : State} {rest : List HostEvent} {j : Nat} {v : Word} (h : 4 * j + 3 < n)
    (hp : s.pending = .write (W.base + 4 * j) 4 v :: rest) :
    step s = .next (W.afterWrite (s.setPending rest) j v h) := by
  have h0 := W.base_ne_zero
  have h4 := W.base_aligned
  rw [step_cons hp, hostEvent, memWrite, if_neg (by omega), if_neg (by omega), W.write_word _ j v h]
  rfl

theorem memRead_afterWrite (s : State) (j : Nat) (v : Word) (h : 4 * j + 3 < n) :
    memRead (W.afterWrite s j v h) (W.base + 4 * j) 4 = some v := by
  rw [W.read_word _ j h]
  simp only [W.get_afterWrite, wordOf_putWord]

variable {W} (hW : W.ShowsBytes)
include hW

theorem windowByte_afterWrite_written (s : State) (j : Nat) (v : Word) (h : 4 * j + 3 < n) {m : Nat} (hm : m < 4) :
    (W.afterWrite s j v h).windowByte (W.base + 4 * j + m) = some (v.extractLsb' (8 * m) 8) := by
  have hword : (4 * j + m) / 4 = j := by omega
  have hbyte : (4 * j + m) % 4 = m := by omega
  rw [Nat.add_assoc, hW.inside _ (4 * j + m) (by omega)]
  simp only [W.get_afterWrite, getElem_putWord, hword, hbyte, if_true, wordByte]

theorem windowByte_afterWrite_other (s : State) (j : Nat) (v : Word) (h : 4 * j + 3 < n) {a : Nat}
    (ha : ¬ (W.base + 4 * j ≤ a ∧ a < W.base + 4 * j + 4)) :
    (W.afterWrite s j v h).windowByte a = s.windowByte a := by
  by_cases hin : W.base ≤ a ∧ a < W.base + n
  · obtain ⟨i, rfl⟩ := Nat.exists_eq_add_of_le hin.1
    have hi : i < n := by omega
    have hword : i / 4 ≠ j := by omega
    rw [hW.inside _ i hi, hW.inside _ i hi]
    simp only [W.get_afterWrite, getElem_putWord, if_neg hword]
  · exact hW.outside s _ a hin

end Window

theorem blkWindow_showsBytes : blkWindow.ShowsBytes where
  inside s i h := by
    have hblk : 0x0100 ≤ 0x0100 + i ∧ 0x0100 + i ≤ 0x01FF := by omega
    have hindex : 0x0100 + i - 0x0100 = i := by omega
    change s.windowByte (0x0100 + i) = some s.blk[i]
    rw [State.windowByte, dif_pos hblk]
    simp only [hindex]
  outside s v a h := (onlyBlk_setBlk s v).2 a fun ha => h ⟨ha.1, Nat.lt_succ_of_le ha.2⟩

theorem seedWindow_showsBytes : seedWindow.ShowsBytes where
  inside s i h := by
    have hseed : 0x0200 ≤ 0x0200 + i ∧ 0x0200 + i ≤ 0x02FF := by omega
    have hindex : 0x0200 + i - 0x0200 = i := by omega
    change s.windowByte (0x0200 + i) = some s.seed[i]
    rw [State.windowByte, dif_neg (by omega), dif_pos hseed]
    simp only [hindex]
  outside s v a h := by
    have ha : ¬ (0x0200 ≤ a ∧ a ≤ 0x02FF) := fun ha => h ⟨ha.1, Nat.lt_succ_of_le ha.2⟩
    change (s.setSeed v).windowByte a = s.windowByte a
    simp only [State.windowByte, dif_neg ha, State.setSeed_blk, State.setSeed_key]

theorem keyWindow_showsBytes : keyWindow.ShowsBytes where
  inside s i h := by
    have hkey : 0x1000 ≤ 0x1000 + i ∧ 0x1000 + i ≤ 0x1FFF := by omega
    have hindex : 0x1000 + i - 0x1000 = i := by omega
    change s.windowByte (0x1000 + i) = some s.key[i]
    rw [State.windowByte, dif_neg (by omega), dif_neg (by omega), dif_pos hkey]
    simp only [hindex]
  outside s v a h := by
    have ha : ¬ (0x1000 ≤ a ∧ a ≤ 0x1FFF) := fun ha => h ⟨ha.1, Nat.lt_succ_of_le ha.2⟩
    change (s.setKey v).windowByte a = s.windowByte a
    simp only [State.windowByte, dif_neg ha, State.setKey_blk, State.setKey_seed]

/-- Settles O18: the write is a write of one word of the window its offset lies in, whose bytes the window shows. -/
theorem windowWriteIsReadBackAndChangesOnlyItsWord : Obligations.WindowWriteIsReadBackAndChangesOnlyItsWord := by
  unfold Obligations.WindowWriteIsReadBackAndChangesOnlyItsWord
  intro s rest off v hoff hwindow hp
  obtain hblk | hseed | hkey := hwindow
  · obtain ⟨j, rfl⟩ : ∃ j, off = 0x0100 + 4 * j := ⟨(off - 0x0100) / 4, by omega⟩
    have hj : 4 * j + 3 < 256 := by omega
    exact ⟨_, blkWindow.step_write hj hp, blkWindow.memRead_afterWrite _ j v hj,
      fun _ => Window.windowByte_afterWrite_written blkWindow_showsBytes _ j v hj,
      fun _ => Window.windowByte_afterWrite_other blkWindow_showsBytes _ j v hj, rfl,
      fun _ => ⟨rfl, rfl⟩, fun _ => by omega, fun _ => by omega⟩
  · obtain ⟨j, rfl⟩ : ∃ j, off = 0x0200 + 4 * j := ⟨(off - 0x0200) / 4, by omega⟩
    have hj : 4 * j + 3 < 256 := by omega
    exact ⟨_, seedWindow.step_write hj hp, seedWindow.memRead_afterWrite _ j v hj,
      fun _ => Window.windowByte_afterWrite_written seedWindow_showsBytes _ j v hj,
      fun _ => Window.windowByte_afterWrite_other seedWindow_showsBytes _ j v hj, rfl,
      fun _ => by omega, fun _ => ⟨rfl, rfl⟩, fun _ => by omega⟩
  · obtain ⟨j, rfl⟩ : ∃ j, off = 0x1000 + 4 * j := ⟨(off - 0x1000) / 4, by omega⟩
    have hj : 4 * j + 3 < 4096 := by omega
    exact ⟨_, keyWindow.step_write hj hp, keyWindow.memRead_afterWrite _ j v hj,
      fun _ => Window.windowByte_afterWrite_written keyWindow_showsBytes _ j v hj,
      fun _ => Window.windowByte_afterWrite_other keyWindow_showsBytes _ j v hj, rfl,
      fun _ => by omega, fun _ => by omega, fun _ => ⟨rfl, rfl⟩⟩

/-! ### Whole arrays (R89) -/

theorem rdSeed_eq (s : State) : ∃ r, rdSeed s = .ok (s.seed, s.setResponse r) := by
  obtain ⟨r, hr⟩ := Window.readAll_words (m := 64) seedWindow (List.finRange 64) s
  rw [← List.ofFn_eq_map] at hr
  have hwords : readAll (ScriptLine.events .rdSeed) s =
    .ok ((List.finRange 64).map fun j : Fin 64 => wordOf s.seed j (word_end_lt j), s.setResponse r) := hr
  exact ⟨r, by rw [rdSeed, hwords]; simp only [unpackBlock_words]⟩

/-- Settles O19: the word writes of a load put every word of the array in place, and the word reads return them all. -/
theorem loadedArraysAreReadBack : Obligations.LoadedArraysAreReadBack := by
  unfold Obligations.LoadedArraysAreReadBack
  intro s a k
  obtain ⟨r, hblk⟩ := rdBlk_eq s
  obtain ⟨r', hseed⟩ := rdSeed_eq s
  exact ⟨⟨_, issueAll_ldBlk a s, rfl⟩, ⟨_, issueAll_ldSeed a s, rfl⟩, ⟨_, issueAll_ldKey k s, rfl⟩, ⟨_, hblk, rfl⟩,
    ⟨_, hseed, rfl⟩⟩

end Sys2Proof.Machine
end

section
/-! PROOFS. The builder beside R106's list form, and its first iteration (spec/40_builder.md R101, R106, R108). -/

namespace Sys2Proof.Machine

variable {n : Nat} [NeZero n]

/-- R106: after the last iteration every slot is assigned, and the list form has put the same value there. -/
theorem buildEncByList_eq (pw : Fin n → Nat) : buildEncByList pw = (buildPerm pw).1 := by
  refine Vector.ext fun j hj => ?_
  obtain ⟨v, hv⟩ := full pw ⟨j, hj⟩
  have hlist : (buildEncByList pw)[j] = v := (linked_after pw n le_rfl).enc ⟨j, hj⟩ v hv
  exact hlist.trans (buildPerm_fst_of_slot hv).symm

/-- R101: in iteration 0 all slots are unassigned and the cursor is 0, so rank and slot are the same number. -/
theorem buildPerm_fst_first (pw : Fin n → Nat) : (buildPerm pw).1[Fin.ofNat n (pw 0)] = 0 := by
  obtain ⟨-, hslot, -⟩ := linked_step pw 0 _ _ (linked_after pw 0 (Nat.zero_le n))
  refine buildPerm_fst_of_slot (after_slot_of_scanFrom (Option.some.inj (hslot.symm.trans ?_)))
  have hrank : pw 0 % n < n := Nat.mod_lt _ (NeZero.pos n)
  simp [listAfter, hrank, Fin.ofNat]

/-- Settles O24: the scan and the list form are linked after every iteration, so their tables agree in every slot. -/
theorem listFormBuildsTheSameTable : Obligations.ListFormBuildsTheSameTable := by
  unfold Obligations.ListFormBuildsTheSameTable
  exact fun _ _ => buildEncByList_eq

/-- Settles O25: the first value goes to the slot of rank `pw[0] mod N` in the list of all slots. -/
theorem firstScanCountsTheCursorSlot : Obligations.FirstScanCountsTheCursorSlot := by
  unfold Obligations.FirstScanCountsTheCursorSlot
  exact fun _ _ => buildPerm_fst_first

/-- Settles O21: the six traces are run. -/
theorem builderGivesTheTracedTables : Obligations.BuilderGivesTheTracedTables := by
  unfold Obligations.BuilderGivesTheTracedTables
  decide

end Sys2Proof.Machine
end

section
/-! PROOFS. Commands that undo each other (spec/41_sbox.md R125, R129, spec/42_pbox.md R148, spec/43_spn.md R164), and the PBox
passes as moves of bits: how two moves compose (R146), one set bit (R147), and bitwise operations (R149). -/

namespace Sys2Proof.Machine

/-! ### Two block commands in sequence -/

theorem execSeq_pair {s : State} (hs : s.keyed = true) {i j : Instr} (hi : writesBlk i = true) (hj : writesBlk j = true) :
    execSeq [i, j] s = .next (s.setBlk (blockAfter j (s.setBlk (blockAfter i s)))) := by
  have hl : ∀ c ∈ [i, j], writesBlk c = true := by simp [hi, hj]
  exact execSeq_block hs hl

/-- A pair whose second command restores the block restores the state. -/
theorem execSeq_pair_undo {s : State} (hs : s.keyed = true) {i j : Instr} (hi : writesBlk i = true)
    (hj : writesBlk j = true) (h : blockAfter j (s.setBlk (blockAfter i s)) = s.blk) : execSeq [i, j] s = .next s := by
  rw [execSeq_pair hs hi hj, h, State.setBlk_self]

/-! ### The cascade and the substitution stage -/

/-- Settles O30: the loop through the boxes is the chain of its eight lookups, undone last lookup first. -/
theorem cascadeChainsTheEightBoxes : Obligations.CascadeChainsTheEightBoxes := by
  unfold Obligations.CascadeChainsTheEightBoxes
  exact ⟨fun s v => ⟨cascEnc_eq s v, cascDec_eq s v⟩, fun _ h v => ⟨h.cascDec_cascEnc v, h.cascEnc_cascDec v⟩⟩

/-- Settles O33: the cascades cancel, and what is left of the two stages is the two key bytes of the lane. -/
theorem substitutionStagesUndoEachOther : Obligations.SubstitutionStagesUndoEachOther := by
  unfold Obligations.SubstitutionStagesUndoEachOther
  refine fun s hs h => ⟨fun r => ⟨?_, ?_⟩, fun r1 r2 => ⟨_, execSeq_pair hs rfl rfl, onlyBlk_setBlk s _, fun i => ?_⟩⟩
  · exact execSeq_pair_undo hs rfl rfl (h.subDecBlock_subEncBlock r s.blk)
  · exact execSeq_pair_undo hs rfl rfl (h.subEncBlock_subDecBlock r s.blk)
  · change byteAt (subDecBlock s.se s.sd r2 (subEncBlock s.se r1 s.blk)) i = _
    rw [byteAt_subDecBlock, byteAt_subEncBlock, h.cascDec_cascEnc]

/-! ### Moves of bits -/

/-- Two moves, one after the other, are one move. -/
theorem scatter_comp (f g : Pos → Pos) (b : Block) : scatter g (scatter f b) = scatter (fun p => g (f p)) b := by
  refine block_ext_bits fun d => ?_
  rw [Bool.eq_iff_iff]
  simp only [bitAt_scatter]
  constructor
  · rintro ⟨_, ⟨p, hp, rfl⟩, hd⟩
    exact ⟨p, hp, hd⟩
  · rintro ⟨p, hp, hd⟩
    exact ⟨f p, ⟨p, hp, rfl⟩, hd⟩

/-- A move takes a single set bit to a single set bit. -/
theorem bitAt_scatter_single {b : Block} {p : Pos} (hb : ∀ q, bitAt b q = decide (q = p)) (move : Pos → Pos) (d : Pos) :
    bitAt (scatter move b) d = decide (d = move p) := by
  rw [Bool.eq_iff_iff, bitAt_scatter, decide_eq_true_iff]
  constructor
  · rintro ⟨q, hq, rfl⟩
    rw [hb, decide_eq_true_iff] at hq
    rw [hq]
  · rintro rfl
    exact ⟨p, by rw [hb, decide_eq_true_iff], rfl⟩

/-- The rotation by `2048 - s` of R146 is the one by `-s`. -/
theorem ofNat_sub_toNat (seed : Pos) : BitVec.ofNat 11 ((2048 - seed.toNat) % 2048) = -seed := by
  apply BitVec.eq_of_toNat_eq
  rw [BitVec.toNat_ofNat, BitVec.toNat_neg, Nat.mod_mod]

/-- Settles O37: each pass is one move, and it is the composition of the two moves named. -/
theorem pboxIsARotationAndACrossbar : Obligations.PboxIsARotationAndACrossbar := by
  unfold Obligations.PboxIsARotationAndACrossbar
  refine ⟨fun t seed b => (scatter_comp _ _ b).symm, fun t seed b => ?_⟩
  rw [ofNat_sub_toNat, rotBlock, crossBlock, scatter_comp]
  simp only [pboxDec, seedUnshift, BitVec.sub_eq_add_neg]

/-- Settles O38: each pass moves the one set bit. -/
theorem oneSetBitShowsATableEntry : Obligations.OneSetBitShowsATableEntry := by
  unfold Obligations.OneSetBitShowsATableEntry
  exact fun s p seed hs hb => ⟨⟨_, exec_pbEnc hs seed, bitAt_scatter_single hb (encMove s.pe seed)⟩,
    ⟨_, exec_pbDec hs seed, bitAt_scatter_single hb (decMove s.pd seed)⟩⟩

theorem State.TablesInverse.pboxDec_pboxEnc_eq_rotBlock {s : State} (h : s.TablesInverse) (a b : Pos) (blk : Block) :
    pboxDec s.pd b (pboxEnc s.pe a blk) = rotBlock (a - b) blk := by
  have hmove (p : Pos) : decMove s.pd b (encMove s.pe a p) = p + (a - b) := by
    rw [decMove, encMove, h.pdPe, BitVec.sub_eq_add_neg, BitVec.sub_eq_add_neg, BitVec.add_assoc]
  rw [pboxEnc_eq_scatter, pboxDec_eq_scatter, scatter_comp, rotBlock]
  simp only [hmove]

/-- With two seeds the pair of passes is a rotation by their difference. -/
theorem State.TablesInverse.execSeq_pbEnc_pbDec {s : State} (h : s.TablesInverse) (hs : s.keyed = true) (a b : Pos) :
    execSeq [.pbEnc a, .pbDec b] s = .next (s.setBlk (rotBlock (a - b) s.blk)) := by
  rw [execSeq_pair hs rfl rfl, ← h.pboxDec_pboxEnc_eq_rotBlock]
  rfl

/-- An engine that a host has keyed, with the block whose only set bit is bit 0. -/
def keyedOneBit : State := construct (State.reset.setBlk (setBit zero256 0))

theorem keyedOneBit_tablesInverse : keyedOneBit.TablesInverse := construct_tablesInverse _

theorem bitAt_keyedOneBit (q : Pos) : bitAt keyedOneBit.blk q = decide (q = 0) := by
  change bitAt (setBit zero256 0) q = _
  rw [bitAt_setBit, bitAt_zero256, Bool.or_false]

/-- Settles O36: the two moves of a pass pair with one seed undo each other; with the seeds 1 and 0 the set bit of `keyedOneBit`
is left one position on. -/
theorem pboxPassesUndoEachOther : Obligations.PboxPassesUndoEachOther := by
  unfold Obligations.PboxPassesUndoEachOther
  refine ⟨fun s hs h seed => ⟨?_, ?_⟩, keyedOneBit, 1, 0, rfl, keyedOneBit_tablesInverse, fun hseq => ?_⟩
  · exact execSeq_pair_undo hs rfl rfl (h.pboxDec_pboxEnc seed s.blk)
  · exact execSeq_pair_undo hs rfl rfl (h.pboxEnc_pboxDec seed s.blk)
  · rw [keyedOneBit_tablesInverse.execSeq_pbEnc_pbDec rfl] at hseq
    have hblk := congrArg State.blk (Host.Outcome.next.inj hseq)
    have hbit := congrArg (fun b => bitAt b 0) hblk
    rw [State.setBlk_blk] at hbit
    simp only [rotBlock, bitAt_scatter_single bitAt_keyedOneBit, bitAt_keyedOneBit] at hbit
    revert hbit
    decide

/-! ### Bitwise operations (R149) -/

/-- Two blocks combined lane by lane. -/
def lanewise (op : Byte → Byte → Byte) (a b : Block) : Block := tabulate fun i => op a[i] b[i]

section Bitwise
variable {op : Byte → Byte → Byte} {bop : Bool → Bool → Bool}
  (hop : ∀ x y j, (op x y).getLsbD j = bop (x.getLsbD j) (y.getLsbD j))
include hop

theorem bitAt_lanewise (a b : Block) (p : Pos) : bitAt (lanewise op a b) p = bop (bitAt a p) (bitAt b p) := by
  simp [bitAt, lanewise, hop]

/-- A reversible move distributes over an operation on single bits. -/
theorem scatter_lanewise {move back : Pos → Pos} (hback : ∀ p, back (move p) = p) (hmove : ∀ d, move (back d) = d)
    (a b : Block) : scatter move (lanewise op a b) = lanewise op (scatter move a) (scatter move b) :=
  block_ext_bits fun d => by
    simp only [bitAt_lanewise hop, bitAt_scatter_bij move back hback hmove]

end Bitwise

/-- With inverse tables each pass is a reversible move. -/
theorem State.TablesInverse.exists_move {s : State} (h : s.TablesInverse) {f : Pos → Block → Block}
    (hf : f = pboxEnc s.pe ∨ f = pboxDec s.pd) (seed : Pos) :
    ∃ move back : Pos → Pos, f seed = scatter move ∧ (∀ p, back (move p) = p) ∧ ∀ d, move (back d) = d := by
  obtain rfl | rfl := hf
  · exact ⟨encMove s.pe seed, decMove s.pd seed, rfl, h.decMove_encMove seed, h.encMove_decMove seed⟩
  · exact ⟨decMove s.pd seed, encMove s.pe seed, rfl, h.encMove_decMove seed, h.decMove_encMove seed⟩

/-- Settles O39: each pass is a reversible move, which takes every output bit from one input bit. -/
theorem pboxPassesAreBitwiseLinear : Obligations.PboxPassesAreBitwiseLinear := by
  unfold Obligations.PboxPassesAreBitwiseLinear
  intro s h f hf seed a b
  obtain ⟨move, back, hmoves, hback, hmove⟩ := h.exists_move hf seed
  rw [hmoves]
  exact ⟨scatter_lanewise (fun x y _ => BitVec.getLsbD_xor) hback hmove a b,
    scatter_lanewise (fun x y _ => BitVec.getLsbD_or) hback hmove a b,
    scatter_lanewise (fun x y _ => BitVec.getLsbD_and) hback hmove a b⟩

/-! ### Rounds -/

/-- Settles O44: a keyed engine that meets the invariant has inverse tables, with which rounds of the same operands cancel. -/
theorem roundsUndoEachOther : Obligations.RoundsUndoEachOther := by
  unfold Obligations.RoundsUndoEachOther
  intro s hs hinv r seed
  have h := hinv.tables hs
  exact ⟨execSeq_rndEnc_rndDec hs h r seed, execSeq_pair_undo hs rfl rfl (h.roundEnc_roundDec r seed s.blk)⟩

end Sys2Proof.Machine
end

section
/-! PROOFS. The round trips and the two encodings of the host procedures (spec/45_host_procedures.md R199, R206), from what each
procedure returns. -/

namespace Sys2Proof.Machine

/-- Settles O56: the engine that encoding leaves has the tables it found, and its decode pass undoes the encode pass. -/
theorem streamDecodeInvertsStreamEncode : Obligations.StreamDecodeInvertsStreamEncode := by
  unfold Obligations.StreamDecodeInvertsStreamEncode
  intro src call plain s hplain hs hinv
  obtain ⟨b, r, henc⟩ := streamEncode_eq hs src call hplain
  have ht : ((s.setBlk b).setResponse r).keyed = true := hs
  obtain ⟨b', r', hdec⟩ := streamDecode_codedMessage ht (hinv.tables hs).passDec_passEnc src call hplain
  exact ⟨_, _, _, henc, container_wellFormed _ _ _ _, rfl, hdec⟩

/-- Settles O57: construction leaves inverse tables, the encoding keeps them, and decoding asks of the seed field only that it is
acceptable. -/
theorem edocDecodeInvertsEdocEncode : Obligations.EdocDecodeInvertsEdocEncode := by
  unfold Obligations.EdocDecodeInvertsEdocEncode
  intro src call pw text key s hkey htext
  have hinv := construct_tablesInverse ((s.setKey key).setResponse .ok)
  obtain ⟨a, b, r, henc⟩ := edocEncode_eq (construct_keyed ((s.setKey key).setResponse .ok)) src call htext
  have ht : ((((construct ((s.setKey key).setResponse .ok)).setSeed a).setBlk b).setResponse r).keyed = true := rfl
  have hdec {seed : List Nat} (hseed : seedOk seed = true) :=
    edocDecode_codedMessage ht hinv.passDec_passEnc src (call + 256) htext hseed
  obtain ⟨s3, hdrawn⟩ := hdec (seedOk_drawnSeed src call)
  exact ⟨_, _, _, s3, constructCipher_eq hkey s, henc, hdrawn, fun _ => hdec⟩

/-- Settles O58: the encode pass reads `SE` and `PE` only, so the two messages are codings of the padded texts by one
transformation, which on tables as `BUILD` leaves them is reversible. -/
theorem seedAndFillerReachOnlyTheLastBlock : Obligations.SeedAndFillerReachOnlyTheLastBlock := by
  unfold Obligations.SeedAndFillerReachOnlyTheLastBlock
  intro src src' call call' text s s' htext hs hs' hse hpe
  obtain ⟨a, b, r, henc⟩ := edocEncode_eq hs src call htext
  obtain ⟨a', b', r', henc'⟩ := edocEncode_eq hs' src' call' htext
  have hpass : passEnc s' = passEnc s := funext (passEnc_congr hse hpe)
  rw [hpass] at henc'
  refine ⟨_, _, _, _, henc, henc', ⟨hs, rfl, rfl, rfl, rfl⟩, take_codedMessage _ _ _ _ _ _, fun hwhole => ?_,
    fun hinv => ?_⟩
  · have hfiller : filler src (call + 256) text.length = filler src' (call' + 256) text.length := by
      rw [filler_eq_nil _ _ hwhole, filler_eq_nil _ _ hwhole]
    exact congrArg (NetContainer.mk text.length) (codedMessage_eq_of_filler_eq _ hfiller)
  · rw [NetContainer.mk.injEq, and_iff_right rfl]
    exact codedMessage_eq_iff (hinv.tables hs).passDec_passEnc (plainOk_iff.1 htext).2

end Sys2Proof.Machine
end
